-- ==== Sys2Proof/Word.lean ====
section
/-!
DEFINITION. The words of the block: a binary32 pattern, a command word. What the bits mean stands in
Machine/Binary32.lean and Decode.lean.
-/

namespace Sys2Proof

/-- A 32-bit pattern read as IEEE 754 binary32 (00_scope.md R12, 40_numerics.md R90): the type of PHASE, PINC,
SAMPLE, of every ROM word, of `cmd_data` and of every intermediate value. -/
abbrev F32 := BitVec 32

/-- A command word, `W` = cmd_valid, cmd_op, cmd_data from the high bit down (30_encoding.md R70). -/
abbrev CmdWord := BitVec 34

end Sys2Proof
end

