-- ==== Sys2Proof/Config.lean ====
section
/-!
DEFINITION. What fixes an implementation: the parameters of one copy of the hardware (00_scope.md R5 to R9), the record of
arithmetic primitives (R11) and the values the spec leaves open.
-/

namespace Sys2Proof

/-- The legality of one table entry (00_scope.md R7): finite, with a value in `[-1.0, 1.0]`. On patterns: the
magnitude bits are at most those of 1.0, `0x3F800000` (40_numerics.md R91: patterns of one sign are ordered as
their values). -/
def entryLegal (b : F32) : Bool :=
  decide ((b.extractLsb' 0 31).toNat ≤ 0x3F800000)

/-- The parameters of one copy of the hardware with their three constraints as proofs (00_scope.md R5, R6, R7, R9):
no illegal configuration can be built. `table` lists `TABLE[0]`, `TABLE[1]`, … -/
structure Config where
  /-- `N`, the table length (R5). -/
  n : Nat
  /-- `SAMPLE_RATE` (R6): a number that only SETF uses. -/
  sampleRate : Nat
  /-- `TABLE`, the contents of `sine_lut_rom` (R7, 20_memory.md R42). -/
  table : List F32
  n_legal : 1 ≤ n ∧ n ≤ 2 ^ 24
  sampleRate_legal : 1 ≤ sampleRate ∧ sampleRate ≤ 2 ^ 24
  table_length : table.length = n
  table_legal : table.all entryLegal = true
  deriving DecidableEq, Repr

/-- The block is monophonic: `CHANNELS = 1` in every configuration (00_scope.md R8, R10). -/
def Config.channels (_c : Config) : Nat := 1

/-- `IDXW = max(1, ceil(log2(N)))`, the width in bits of a table index (00_scope.md R8). -/
def Config.idxw (c : Config) : Nat :=
  if c.n ≤ 2 then 1 else Nat.log2 (c.n - 1) + 1

/-- The arithmetic primitives as a configuration record (00_scope.md R11, 40_numerics.md R108). The hardware is the
default record `Numerics.ieee` of Machine/Numerics.lean; another record would be another block. `f2idx` takes `N` first. -/
structure Numerics where
  fadd : F32 → F32 → F32
  fsub : F32 → F32 → F32
  fmul : F32 → F32 → F32
  fdiv : F32 → F32 → F32
  frem : F32 → F32 → F32
  u2f : Nat → F32
  f2idx : Nat → F32 → Nat
  pred : F32 → F32
  flt : F32 → F32 → Bool
  fisZero : F32 → Bool
  fisNan : F32 → Bool

/-- FREE VALUE (20_memory.md R51, D22, U2; log 7): the word a ROM answers at an index `≥ N`. The oscillator never
sends one. -/
opaque Config.romUnused : Nat → F32

/-- FREE VALUE (log 8): `frem(a, n)` of a finite `a` where `n` is a zero or an infinity. 40_numerics.md R98 defines `frem`
for `n = N_f` only, and no command passes anything else. -/
opaque Config.fremOutside : F32 → F32 → F32

/-- FREE VALUE (log 8): `pred(b)` where `b` is neither positive and normal nor a NaN; 40_numerics.md R101 and R93 define no
other case. -/
opaque Config.predOutside : F32 → F32

/-- What a free value of the pins' view may depend on: how many commands and reset events came before (`tick`), the
parameters and the three registers. 70_reset_and_hazards.md R212 says "finite for every state and operand", so a latency
may differ with them. That it depends on nothing else, such as the cycles spent idle, is a DESIGN CHOICE (log 5). -/
structure Situation where
  tick : Nat
  inst : Config
  phase : F32
  pinc : F32
  sample : F32
  deriving DecidableEq, Repr

/-- FREE VALUE (70_reset_and_hazards.md R212, D17; log 5): `LAT_NEXT - 1` of a NEXT accepted in a situation. Only the
pins' view, Machine/Clock.lean, reads it. -/
opaque Config.latNext : Situation → Nat

/-- FREE VALUE (70_reset_and_hazards.md R212, D17; log 5): `LAT_SETF - 1` of a SETF accepted in a situation with an
operand. -/
opaque Config.latSetf : Situation → F32 → Nat

/-- FREE VALUE (70_reset_and_hazards.md R200; log 5): how many more cycles after the first `cmd_ready` stays 0 after a
reset event. -/
opaque Config.recovery : Situation → Nat

/-- FREE VALUE (10_state.md R29, log 11): whether `cmd_ready` is already 1 in the cycle of a `sample_valid` pulse. -/
opaque Config.readyInStrobe : Situation → Bool

/-- FREE VALUE (10_state.md R24, 60_exceptions.md R183, log 11): whether `sample_data` shows the new value in what would
be the strobe cycle of a NEXT, when `rst = 1` in that cycle abandons the NEXT. -/
opaque Config.sampleInAbandonedStrobe : Situation → Bool

end Sys2Proof
end

