-- ==== Sys2Proof/Syntax.lean ====
section
/-!
DEFINITION. The commands (the spec's word for instructions): one constructor for each row of
spec/opcode_table.json. The set is complete (43_idle.md R174).
-/

namespace Sys2Proof

/-- A command of the block. The ignored bits of IDLE and NEXT are no operands: they are not stored
(30_encoding.md R72, R74). -/
inductive Instr where
  /-- IDLE: no command is presented (43_idle.md R170). -/
  | idle
  /-- NEXT: produce one sample and advance the phase (42_sample_generation.md R140). -/
  | next
  /-- SETF: set the frequency to the binary32 pattern `f` (41_frequency_control.md R130). -/
  | setf (f : F32)
  deriving DecidableEq, Repr

end Sys2Proof
end

