-- ==== Sys2Proof/WellFormed.lean ====
section
/-!
DEFINITION. The checks on terms: of commands (none can fail, 30_encoding.md R72) and of a parameter set, which is
checked once, when a configuration is made (00_scope.md R9).
-/

namespace Sys2Proof

/-- Every command is well formed: NEXT and IDLE have no operand, and each of the `2^32` patterns is a legal operand
of SETF (30_encoding.md R72, R74). -/
def Instr.wf : Instr → Bool
  | .idle => true
  | .next => true
  | .setf _ => true

/-- Why elaboration refuses a parameter set (00_scope.md R9). -/
inductive ConfigError where
  /-- `N` is outside `1 .. 2^24` (R5). -/
  | nOutOfRange
  /-- `SAMPLE_RATE` is outside `1 .. 2^24` (R6). -/
  | sampleRateOutOfRange
  /-- Entry `i` of `TABLE` is not finite or outside `[-1, 1]` (R7). -/
  | tableEntry (i : Nat)
  /-- The list given for `TABLE` does not have `N` entries; the spec's `TABLE` is a function on `0 .. N-1`, so it has
  no such case (log 6). -/
  | tableLength
  deriving DecidableEq, Repr

/-- Elaboration: the configuration of a legal parameter set, or the name of what is wrong (00_scope.md R9, U1, U5,
U10). This is the only place where parameters are checked. -/
def Config.elaborate (n sampleRate : Nat) (table : List F32) : Except ConfigError Config :=
  if hn : 1 ≤ n ∧ n ≤ 2 ^ 24 then
    if hs : 1 ≤ sampleRate ∧ sampleRate ≤ 2 ^ 24 then
      if hl : table.length = n then
        if ht : table.all entryLegal = true then
          .ok ⟨n, sampleRate, table, hn, hs, hl, ht⟩
        else .error (.tableEntry (table.findIdx (fun b => !entryLegal b)))
      else .error .tableLength
    else .error .sampleRateOutOfRange
  else .error .nOutOfRange

/-- The canonical form of the ROM as data: `N` legal words. It holds of every configuration, since the type carries
it (Laws/Memory.lean). -/
def Memory.wf (c : Config) : Bool :=
  decide (c.table.length = c.n) && c.table.all entryLegal

end Sys2Proof
end

