-- ==== Sys2Proof/Decode.lean ====
section
/-!
DEFINITION. The command word: decoding, total on the `2^34` words (30_encoding.md R73), and its inverse on canonical
words (R78). After them what the host asks for: decoding of a number that is to be a command word.
-/

namespace Sys2Proof

/-- `valid`, bit 33 of the command word: port `cmd_valid` (30_encoding.md R71). -/
def CmdWord.valid (w : CmdWord) : Bool := w.getLsbD 33

/-- `op`, bit 32 of the command word: port `cmd_op` (30_encoding.md R71). -/
def CmdWord.op (w : CmdWord) : Bool := w.getLsbD 32

/-- `data`, bits 31:0 of the command word: port `cmd_data` (30_encoding.md R71). -/
def CmdWord.data (w : CmdWord) : F32 := w.extractLsb' 0 32

/-- The decoder of 30_encoding.md R73. Bits that the row of a command ignores have no effect (R74). -/
def decode (w : CmdWord) : Instr :=
  if CmdWord.valid w = false then .idle
  else if CmdWord.op w = false then .next
  else .setf (CmdWord.data w)

/-- The encoder of 30_encoding.md R78: the canonical word, zeros in the ignored bits. -/
def encode : Instr → CmdWord
  | .idle => 0x000000000#34
  | .next => 0x200000000#34
  | .setf f => 0x300000000#34 + f.setWidth 34

/-- A word is canonical when the bits its row ignores are zero (30_encoding.md R74). -/
def canonical (w : CmdWord) : Bool :=
  if CmdWord.valid w = false then w == 0#34
  else if CmdWord.op w = false then CmdWord.data w == 0#32
  else true

/-- One row of the opcode map: the words `W` with `W and mask = match` (30_encoding.md R73). -/
structure OpcodeRow where
  mnemonic : String
  mask : CmdWord
  pattern : CmdWord
  deriving DecidableEq, Repr

/-- The row of IDLE. -/
def OpcodeRow.idle : OpcodeRow := ⟨"IDLE", 0x200000000#34, 0x000000000#34⟩
/-- The row of NEXT. -/
def OpcodeRow.next : OpcodeRow := ⟨"NEXT", 0x300000000#34, 0x200000000#34⟩
/-- The row of SETF. -/
def OpcodeRow.setf : OpcodeRow := ⟨"SETF", 0x300000000#34, 0x300000000#34⟩

/-- The word is one of the row's. -/
def OpcodeRow.selects (r : OpcodeRow) (w : CmdWord) : Bool := w &&& r.mask == r.pattern

/-- Why a number is no command word. -/
inductive DecodeError where
  /-- The number has a bit above bit 33, and the port has 34 wires (log 10). -/
  | widerThanCommandWord
  deriving DecidableEq, Repr

/-- The command a number stands for, its bit `k` being bit `k` of the command word. -/
def decodeNumber (w : Nat) : Except DecodeError Instr :=
  if w < 2 ^ 34 then .ok (decode (BitVec.ofNat 34 w)) else .error .widerThanCommandWord

/-- For the host: the command read from `nbits` bits of value `w`, every bit above them zero; none where the
decoder refuses. There is no byte order to choose: the word is presented whole (20_memory.md R52, log 10). -/
def decodeTableWord (nbits w : Nat) : Option Instr :=
  match decodeNumber (w % 2 ^ nbits) with
  | .ok i => some i
  | .error _ => none

end Sys2Proof
end

