-- ==== Sys2Proof/Machine/Binary32.lean ====
section
/-!
DEFINITION. The binary32 format: fields, classes, values (40_numerics.md R90, R91), and the one rounding of the block,
`round32` (R92). Real arithmetic is done exactly on integers: every finite pattern is a whole number of UNITS of
`2^-149`, the smallest positive subnormal (log 13).
-/

namespace Sys2Proof.F32

/-- The sign field `S`, bit 31 (40_numerics.md R90). -/
def sign (b : F32) : Bool := b.getLsbD 31

/-- The biased exponent field `E`, bits 30:23 (40_numerics.md R90). -/
def expo (b : F32) : Nat := (b.extractLsb' 23 8).toNat

/-- The fraction field `F`, bits 22:0 (40_numerics.md R90). -/
def frac (b : F32) : Nat := (b.extractLsb' 0 23).toNat

/-- The pattern with the given fields, each cut to its width. -/
def pack (s : Bool) (e f : Nat) : F32 :=
  BitVec.ofBool s ++ (BitVec.ofNat 8 e ++ BitVec.ofNat 23 f)

/-- `ONE`, 1.0 (40_numerics.md R91). -/
def one : F32 := 0x3F800000#32
/-- `PZERO`, +0.0 (40_numerics.md R91). -/
def pzero : F32 := 0x00000000#32
/-- `CNAN`, the canonical NaN, the only NaN an operation produces (40_numerics.md R91, R93). -/
def cnan : F32 := 0x7FC00000#32

/-- `fis_nan` (40_numerics.md R102). -/
def isNaN (b : F32) : Bool := expo b == 255 && frac b != 0
/-- The class infinity (40_numerics.md R91). -/
def isInf (b : F32) : Bool := expo b == 255 && frac b == 0
/-- `fis_zero`: both zeros (40_numerics.md R102). -/
def isZero (b : F32) : Bool := b.extractLsb' 0 31 == 0#31
/-- The class subnormal (40_numerics.md R91). -/
def isSubnormal (b : F32) : Bool := expo b == 0 && frac b != 0
/-- The class normal (40_numerics.md R91). -/
def isNormal (b : F32) : Bool := decide (1 ≤ expo b) && decide (expo b ≤ 254)
/-- Finite: zero, subnormal or normal (40_numerics.md R91). -/
def isFinite (b : F32) : Bool := expo b != 255

/-- The infinity of a sign. -/
def inf (s : Bool) : F32 := pack s 255 0
/-- The zero of a sign. -/
def zero (s : Bool) : F32 := pack s 0 0
/-- `neg(b)` flips the sign and nothing else (40_numerics.md R91). -/
def neg (b : F32) : F32 := b ^^^ 0x80000000#32

/-- `val(b)` of a finite pattern as the table of 40_numerics.md R91 gives it; 0 for a pattern that has no value. The
machine computes with `signedUnits`; claims are read in `val` (Laws/Binary32.lean says they agree). -/
def val (b : F32) : ℚ :=
  if expo b = 255 then 0
  else if expo b = 0 then (-1) ^ (sign b).toNat * (frac b : ℚ) * (2 : ℚ) ^ (-149 : ℤ)
  else (-1) ^ (sign b).toNat * ((2 ^ 23 + frac b : ℕ) : ℚ) * (2 : ℚ) ^ ((expo b : ℤ) - 150)

/-- `|val(b)| / 2^-149` of a finite pattern (40_numerics.md R91). -/
def units (b : F32) : Nat :=
  if expo b = 0 then frac b else (2 ^ 23 + frac b) * 2 ^ (expo b - 1)

/-- `val(b) / 2^-149` of a finite pattern. -/
def signedUnits (b : F32) : Int :=
  if sign b then -(units b : Int) else (units b : Int)

/-- An exact value that an operation will round: `± num / den` units of `2^-149`. -/
structure Exact where
  neg : Bool
  num : Nat
  den : Nat
  deriving DecidableEq, Repr

/-- The real number an `Exact` stands for. -/
def Exact.val (x : Exact) : ℚ :=
  (-1) ^ x.neg.toNat * ((x.num : ℚ) / x.den) * (2 : ℚ) ^ (-149 : ℤ)

/-- The exact value of a whole number of units. -/
def Exact.ofInt (k : Int) : Exact := ⟨decide (k < 0), k.natAbs, 1⟩

/-- The integer nearest to `num / den`; exactly halfway, the even one (the choice of `M` in 40_numerics.md R92). -/
def nearestEven (num den : Nat) : Nat :=
  let k := num / den
  let r := num % den
  if 2 * r < den then k
  else if den < 2 * r then k + 1
  else k + k % 2

/-- `e + 126` of 40_numerics.md R92, the binade of a non-zero magnitude `num / den` units counted from the lowest one:
`max(floor(log2 a), -126) + 126 = floor(log2(a / 2^-149)) - 23`, the subtraction stopping at 0. The spacing there is
`2 ^ binade` units. -/
def binade (num den : Nat) : Nat := Nat.log2 (num / den) - 23

/-- The pattern with significand `m` in binade `t` (40_numerics.md R92, its last five lines): the carry into the next
binade, overflow to infinity, subnormals and zero, normals. -/
def assemble (s : Bool) (m t : Nat) : F32 :=
  let m' := if m = 2 ^ 24 then 2 ^ 23 else m
  let t' := if m = 2 ^ 24 then t + 1 else t
  if 253 < t' then inf s
  else if m' < 2 ^ 23 then pack s 0 m'
  else pack s (t' + 1) (m' - 2 ^ 23)

/-- `round32(x, s0)`: round to nearest, ties to even, the only rounding in the block (40_numerics.md R92). -/
def round32 (x : Exact) (s0 : Bool) : F32 :=
  if x.num = 0 then zero s0
  else
    let t := binade x.num x.den
    assemble x.neg (nearestEven x.num (x.den * 2 ^ t)) t

end Sys2Proof.F32
end

