-- ==== Sys2Proof/Machine/Flags.lean ====
section
/-!
DEFINITION. Comparisons and tests of patterns (40_numerics.md R102). The block has NO flags: none is written or kept
(10_state.md R26, 40_numerics.md R106); these are the conditions its arithmetic asks.
-/

namespace Sys2Proof.F32

/-- `flt(a, b)`: a is less than b (40_numerics.md R102): false with a NaN, the zeros equal, the infinities at the ends. -/
def flt (a b : F32) : Bool :=
  if isNaN a || isNaN b then false
  else if isInf a then sign a && !(isInf b && sign b)
  else if isInf b then !sign b
  else decide (signedUnits a < signedUnits b)

/-- `feq(a, b)`: numerical equality (40_numerics.md R102). -/
def feq (a b : F32) : Bool :=
  if isNaN a || isNaN b then false
  else if isZero a && isZero b then true
  else a == b

end Sys2Proof.F32
end

