-- ==== Sys2Proof/Machine/Numerics.lean ====
section
/-!
DEFINITION. The arithmetic operations (40_numerics.md R94 to R101) and the record of them that the hardware is
(00_scope.md R11). Each operation computes exactly and rounds once (R92, R105); every NaN result is the canonical one
(R93); nothing is signalled (R106).
-/

namespace Sys2Proof.F32

/-- `fadd(a, b)` (40_numerics.md R94). -/
def fadd (a b : F32) : F32 :=
  if isNaN a || isNaN b then cnan
  else if isInf a && isInf b then (if sign a = sign b then a else cnan)
  else if isInf a then a
  else if isInf b then b
  else
    let x := signedUnits a + signedUnits b
    if x = 0 then zero (sign a && sign b)
    else round32 (Exact.ofInt x) false

/-- `fsub(a, b)` (40_numerics.md R95). -/
def fsub (a b : F32) : F32 :=
  if isNaN a || isNaN b then cnan else fadd a (neg b)

/-- `fmul(a, b)` (40_numerics.md R96). The product of two numbers of units is in units of `2^-298`. -/
def fmul (a b : F32) : F32 :=
  if isNaN a || isNaN b then cnan
  else
    let s := xor (sign a) (sign b)
    if isInf a || isInf b then (if isZero a || isZero b then cnan else inf s)
    else round32 ⟨s, units a * units b, 2 ^ 149⟩ s

/-- `fdiv(a, b)` (40_numerics.md R97). In the block `b` is always `SR_f`; the other branches make the function total. -/
def fdiv (a b : F32) : F32 :=
  if isNaN a || isNaN b then cnan
  else
    let s := xor (sign a) (sign b)
    if isInf a then (if isInf b then cnan else inf s)
    else if isInf b then zero s
    else if isZero b then (if isZero a then cnan else inf s)
    else round32 ⟨s, units a * 2 ^ 149, units b⟩ s

/-- `frem(a, n)`: the remainder with truncated quotient, exact (40_numerics.md R98); the
canonical NaN for a NaN operand, `n` included (R93). For a finite `a` and an `n` that is a zero or an infinity the spec
gives no value (log 8). -/
def frem (a n : F32) : F32 :=
  if isNaN a || isNaN n then cnan
  else if isInf a then cnan
  else if isZero n || isInf n then Config.fremOutside a n
  else round32 (Exact.ofInt ((signedUnits a).tmod (signedUnits n))) (sign a)

/-- `u2f(k) = round32(k, 0)`, exact for the block's arguments `k ≤ 2^24` (40_numerics.md R99). -/
def u2f (k : Nat) : F32 := round32 ⟨false, k * 2 ^ 149, 1⟩ false

/-- `f2idx(p)` for a table of `n` entries: `floor(val(p))`, 0 for NaN and for the sign bit, saturating at `n - 1`
(40_numerics.md R100). -/
def f2idx (n : Nat) (p : F32) : Nat :=
  if isNaN p then 0
  else if sign p then 0
  else if isInf p then n - 1
  else min (units p / 2 ^ 149) (n - 1)

/-- `pred(b)` of a positive normal value: the pattern minus one (40_numerics.md R101); the canonical NaN for a NaN (R93);
the spec gives no other case (log 8). -/
def pred (b : F32) : F32 :=
  if isNaN b then cnan
  else if !sign b && isNormal b then b - 1#32
  else Config.predOutside b

end Sys2Proof.F32

namespace Sys2Proof

/-- The record of primitives that the hardware is: IEEE 754 binary32 with round to nearest, ties to even
(00_scope.md R11, 40_numerics.md R108). -/
def Numerics.ieee : Numerics where
  fadd := F32.fadd
  fsub := F32.fsub
  fmul := F32.fmul
  fdiv := F32.fdiv
  frem := F32.frem
  u2f := F32.u2f
  f2idx := F32.f2idx
  pred := F32.pred
  flt := F32.flt
  fisZero := F32.isZero
  fisNan := F32.isNaN

/-- `wrap(s)`: a phase sum brought into `[0, N)` for a table with `N_f = nf` (40_numerics.md R103, 90_conflicts.md C1):
the exact remainder, a zero of either sign to +0.0, a negative remainder raised by one rounded addition of `N_f`, and
the largest value below `N` where that addition rounds up to `N` itself. -/
def Numerics.wrap (nm : Numerics) (nf s : F32) : F32 :=
  let r := nm.frem s nf
  if nm.fisNan r then F32.cnan
  else if nm.fisZero r then F32.pzero
  else if F32.sign r = false then r
  else
    let t := nm.fadd r nf
    if t = nf then nm.pred nf else t

end Sys2Proof
end

