-- ==== Sys2Proof/Machine/SineRom.lean ====
section
/-!
DEFINITION. The contents of `sine_lut_rom`: the default table at `N = 64` as the spec lists it (20_memory.md R44), the
default table for any `N` (R43), and the default configuration (00_scope.md R5, R6, R7).
-/

namespace Sys2Proof

/-- The default table at `N = 64`, index 0 first (20_memory.md R44, the one list). -/
def sineTable64 : List F32 :=
  [0x00000000#32, 0x3DC8BD36#32, 0x3E47C5C2#32, 0x3E94A031#32, 0x3EC3EF15#32, 0x3EF15AEA#32, 0x3F0E39DA#32, 0x3F226799#32] ++
  [0x3F3504F3#32, 0x3F45E403#32, 0x3F54DB31#32, 0x3F61C598#32, 0x3F6C835E#32, 0x3F74FA0B#32, 0x3F7B14BE#32, 0x3F7EC46D#32] ++
  [0x3F800000#32, 0x3F7EC46D#32, 0x3F7B14BE#32, 0x3F74FA0B#32, 0x3F6C835E#32, 0x3F61C598#32, 0x3F54DB31#32, 0x3F45E403#32] ++
  [0x3F3504F3#32, 0x3F226799#32, 0x3F0E39DA#32, 0x3EF15AEA#32, 0x3EC3EF15#32, 0x3E94A031#32, 0x3E47C5C2#32, 0x3DC8BD36#32] ++
  [0x00000000#32, 0xBDC8BD36#32, 0xBE47C5C2#32, 0xBE94A031#32, 0xBEC3EF15#32, 0xBEF15AEA#32, 0xBF0E39DA#32, 0xBF226799#32] ++
  [0xBF3504F3#32, 0xBF45E403#32, 0xBF54DB31#32, 0xBF61C598#32, 0xBF6C835E#32, 0xBF74FA0B#32, 0xBF7B14BE#32, 0xBF7EC46D#32] ++
  [0xBF800000#32, 0xBF7EC46D#32, 0xBF7B14BE#32, 0xBF74FA0B#32, 0xBF6C835E#32, 0xBF61C598#32, 0xBF54DB31#32, 0xBF45E403#32] ++
  [0xBF3504F3#32, 0xBF226799#32, 0xBF0E39DA#32, 0xBEF15AEA#32, 0xBEC3EF15#32, 0xBE94A031#32, 0xBE47C5C2#32, 0xBDC8BD36#32]

/-- `floor(pi * 2^256)` (PRESUMED, log 9: the spec names the real constant and gives no digits). -/
def piScaled : Nat :=
  0x3243f6a8885a308d313198a2e03707344a4093822299f31d0082efa98ec4e6c89

/-- The Taylor series of the sine in fixed point with 256 fraction bits: `fuel` more terms, the next one being `term`
with divisor index `k` (`term = x^k / k!`); the sum so far is `pos - neg` and `term` is to be added to `pos`. -/
def sineSeries (x : Nat) : (fuel k term pos neg : Nat) → Nat
  | 0, _, _, pos, neg => pos - neg
  | fuel + 1, k, term, pos, neg =>
    sineSeries x fuel (k + 2) (term * x / 2 ^ 256 * x / 2 ^ 256 / ((k + 1) * (k + 2))) neg (pos + term)

/-- `sin(pi * a / n)` for `0 ≤ a/n ≤ 1/2` in units of `2^-256`, to far more bits than one rounding needs (log 9). An
even number of terms is taken, so the two sums have changed places an even number of times. -/
def sineScaled (a n : Nat) : Nat :=
  let x := piScaled * a / n
  sineSeries x 44 1 x 0 0

/-- `TABLE[i] = round32(sin(2 pi i / n))` of the default table for `n` entries (20_memory.md R43): exactly +0.0 where
the real sine is zero; elsewhere the angle is reflected into the first quadrant and rounded once. -/
def sineEntry (n i : Nat) : F32 :=
  if 2 * i % n = 0 then F32.pzero
  else
    let below := decide (n < 2 * i)
    let j := if below then n - i else i
    let a := if n < 4 * j then n - 2 * j else 2 * j
    F32.round32 ⟨below, sineScaled a n, 2 ^ 107⟩ false

/-- The default table for `n` entries (20_memory.md R43). -/
def sineTable (n : Nat) : List F32 := (List.range n).map (sineEntry n)

/-- The default parameters: `N = 64`, `SAMPLE_RATE = 44100`, the sine table (00_scope.md R5, R6, R7). -/
def Config.default : Config where
  n := 64
  sampleRate := 44100
  table := sineTable64
  n_legal := by decide
  sampleRate_legal := by decide
  table_length := rfl
  table_legal := by decide

end Sys2Proof
end

