-- ==== Sys2Proof/Machine/State.lean ====
section
/-!
DEFINITION. The state: the three registers of 10_state.md R20, the constants of the copy of the hardware that they
belong to, and the run's input and output (00_scope.md R14). Plain data.
-/

namespace Sys2Proof.Machine

/-- What the consumer drives at one rising clock edge: the reset pin, and the command word on `cmd_valid`, `cmd_op`,
`cmd_data` (10_state.md R28, 30_encoding.md R70). -/
structure Pins where
  rst : Bool
  word : CmdWord
  deriving DecidableEq, Repr

/-- The state of a run. -/
structure State where
  /-- `N`, `SAMPLE_RATE`, `TABLE`: constants, written by no operation and not touched by reset (10_state.md R27,
  20_memory.md R48, 70_reset_and_hazards.md R201; log 1). -/
  inst : Config
  /-- `PHASE`, a fractional index into the table (10_state.md R21). -/
  phase : F32
  /-- `PINC`, the phase increment per sample (10_state.md R23). -/
  pinc : F32
  /-- `SAMPLE`, the output register; it drives `sample_data` at all times (10_state.md R24). -/
  sample : F32
  /-- The MODEL's field: the accepted command words and reset events still to come, next first (00_scope.md R14, log 3). -/
  inputs : List Pins
  /-- The MODEL's field: the sample stream, the samples emitted so far, oldest first (00_scope.md R14, log 4). -/
  stream : List F32
  deriving DecidableEq, Repr

/-- Why the machine stops with a fault: never. The block raises no exception and no command faults (60_exceptions.md
R180), so there is no constructor. -/
inductive Fault where
  deriving DecidableEq, Repr

/-- Why a command has no meaning: no meaning answers with this, since every command word is executed (60_exceptions.md
R180). -/
inductive Refusal where
  /-- Raised by no arm of `exec`: all three commands have their meaning. Safe: it stops where the hardware goes on. -/
  | notModelled (mnemonic : String)
  deriving DecidableEq, Repr

/-- The machine right after the first reset event of a run (10_state.md R31 to R35): the three registers at +0.0, an
empty sample stream. The copy of the hardware is the default one (log 2); no input is pending (log 3). -/
def State.reset : State where
  inst := Config.default
  phase := 0x00000000#32
  pinc := 0x00000000#32
  sample := 0x00000000#32
  inputs := []
  stream := []

end Sys2Proof.Machine
end

