-- ==== Sys2Proof/Machine/Operands.lean ====
section
/-!
DEFINITION. The operands of the commands. The one written operand is `f` of SETF, used as it stands (30_encoding.md
R72); the rest is implicit: PHASE, PINC, SAMPLE and the constants derived from `N` and `SAMPLE_RATE` (00_scope.md R8).
-/

namespace Sys2Proof

/-- `N_f = u2f(N)` (00_scope.md R8). -/
def Config.nf (c : Config) : F32 := F32.u2f c.n

/-- `SR_f = u2f(SAMPLE_RATE)` (00_scope.md R8). -/
def Config.srf (c : Config) : F32 := F32.u2f c.sampleRate

/-- `PRED_N = pred(N_f)`, the largest binary32 value below `N` (00_scope.md R8, 40_numerics.md R101). -/
def Config.predN (c : Config) : F32 := F32.pred c.nf

/-- `i1 = (i0 + 1) mod N`, by comparison (40_numerics.md R104). -/
def Config.succIndex (c : Config) (i : Nat) : Nat :=
  if i = c.n - 1 then 0 else i + 1

end Sys2Proof
end

