-- ==== Sys2Proof/Machine/Ops.lean ====
section
/-!
DEFINITION. The named operations on the state: register writes, the ROM read, the emission of a sample, the reset event
and the taking of one input. There is no taking of an exception and no return from one: the block has none
(60_exceptions.md R180, R184, R185).
-/

namespace Sys2Proof.Machine

/-- `MemRead(i, 4)`, also `ROM[i]` (20_memory.md R47). At an index `≥ N`, which the oscillator never uses, the word is
a free value (R51). A read changes nothing (R49). -/
def romRead (c : Config) (i : Nat) : F32 := c.table.getD i (Config.romUnused i)

/-- `TABLEc(j) = TABLE[j mod N]`, the cyclic reading that the table stands for (20_memory.md R46). -/
def romCyclic (c : Config) (j : Nat) : F32 := romRead c (j % c.n)

/-- `rom_data` for the `IDXW` bits of `rom_addr`, the ports of a separately built `sine_lut_rom` (10_state.md R28). -/
def romData (c : Config) (addr : BitVec c.idxw) : F32 := romRead c addr.toNat

/-- `PHASE <- v`. -/
def State.writePhase (s : State) (v : F32) : State := { s with phase := v }

/-- `PINC <- v`. -/
def State.writePinc (s : State) (v : F32) : State := { s with pinc := v }

/-- `SAMPLE <- v`. -/
def State.writeSample (s : State) (v : F32) : State := { s with sample := v }

/-- `emit(v)`: append to the sample stream (00_scope.md R13). -/
def State.emit (s : State) (v : F32) : State := { s with stream := s.stream ++ [v] }

/-- The output port `sample_data` (10_state.md R24, R28): the register SAMPLE at all times. -/
def State.sampleData (s : State) : F32 := s.sample

/-- A reset event (70_reset_and_hazards.md R200, 10_state.md R31 to R33): the three registers become +0.0. The
parameters and the ROM stay (R201); samples already emitted stay emitted (10_state.md R35, 90_conflicts.md C8). -/
def State.resetEvent (s : State) : State :=
  { s with phase := 0x00000000#32, pinc := 0x00000000#32, sample := 0x00000000#32 }

/-- What one input asks of the block. -/
inductive Event where
  /-- A reset event. -/
  | reset
  /-- The execution of one command. -/
  | command (i : Instr)
  deriving DecidableEq, Repr

/-- Reset wins over a command presented at the same edge (60_exceptions.md R183, 70_reset_and_hazards.md R203);
otherwise the word is decoded (30_encoding.md R73). -/
def Pins.event (p : Pins) : Event :=
  if p.rst then .reset else .command (decode p.word)

/-- An edge with no command presented and `rst = 0`. -/
def Pins.quiet : Pins := ⟨false, 0#34⟩

/-- An edge that presents a command word with `rst = 0`. -/
def Pins.present (w : CmdWord) : Pins := ⟨false, w⟩

/-- The next input and the state without it. After the last input the block idles for as long as it is clocked
(70_reset_and_hazards.md R214). -/
def State.fetch (s : State) : Pins × State :=
  match s.inputs with
  | [] => (Pins.quiet, s)
  | p :: rest => (p, { s with inputs := rest })

/-- The state whose next input is the number `w` cut to `nbits` bits and then to the 34 wires of the port. -/
def State.presentNumber (s : State) (nbits w : Nat) : State :=
  { s with inputs := Pins.present (BitVec.ofNat 34 (w % 2 ^ nbits)) :: s.inputs }

end Sys2Proof.Machine
end

