-- ==== Sys2Proof/Machine/Frequency.lean ====
section
/-!
DEFINITION. SETF, frequency control (41_frequency_control.md R130 to R135).
-/

namespace Sys2Proof.Machine

/-- `(f * N) / SAMPLE_RATE`: two operations, each rounded, multiply first (41_frequency_control.md R130, D9). -/
def increment (nm : Numerics) (c : Config) (f : F32) : F32 :=
  nm.fdiv (nm.fmul f c.nf) c.srf

/-- SETF writes PINC and nothing else, for every pattern `f` (41_frequency_control.md R130, R132, R134). -/
def execSetf (f : F32) (s : State) : Host.Outcome State Fault Refusal :=
  .next (s.writePinc (increment Numerics.ieee s.inst f))

end Sys2Proof.Machine
end

