-- ==== Sys2Proof/Machine/Idle.lean ====
section
/-!
DEFINITION. IDLE (43_idle.md R170).
-/

namespace Sys2Proof.Machine

/-- IDLE reads nothing and writes nothing; nothing is emitted (43_idle.md R170). -/
def execIdle (s : State) : Host.Outcome State Fault Refusal := .next s

end Sys2Proof.Machine
end

