-- ==== Sys2Proof/Machine/Sample.lean ====
section
/-!
DEFINITION. NEXT, sample generation (42_sample_generation.md R140 to R154): the table indexer, the linear interpolator
and the phase accumulator.
-/

namespace Sys2Proof.Machine

/-- The indexer's lower index `i0 = f2idx(p)` (42_sample_generation.md R141). -/
def lowIndex (nm : Numerics) (c : Config) (p : F32) : Nat := nm.f2idx c.n p

/-- The indexer's upper index `i1 = (i0 + 1) mod N` (42_sample_generation.md R141, 40_numerics.md R104). -/
def highIndex (nm : Numerics) (c : Config) (p : F32) : Nat := c.succIndex (lowIndex nm c p)

/-- The fractional weight `w = p - i0` (42_sample_generation.md R142). -/
def weight (nm : Numerics) (c : Config) (p : F32) : F32 :=
  nm.fsub p (nm.u2f (lowIndex nm c p))

/-- The interpolator: `(1 - w) * t0 + w * t1`, four operations, four roundings, none fused (42_sample_generation.md
R143, 40_numerics.md R105). -/
def interpolate (nm : Numerics) (w t0 t1 : F32) : F32 :=
  let u := nm.fsub F32.one w
  let a := nm.fmul u t0
  let b := nm.fmul w t1
  nm.fadd a b

/-- The sample for a phase: it depends on the phase and the ROM only (42_sample_generation.md R140, R145). -/
def sampleAt (nm : Numerics) (c : Config) (p : F32) : F32 :=
  interpolate nm (weight nm c p) (romRead c (lowIndex nm c p)) (romRead c (highIndex nm c p))

/-- The accumulator: one rounded addition, then the reduction into `[0, N)` (42_sample_generation.md R144). -/
def advance (nm : Numerics) (c : Config) (p d : F32) : F32 :=
  nm.wrap c.nf (nm.fadd p d)

/-- NEXT (42_sample_generation.md R140): the sample comes from the phase before the advance, and the writes and the
emission happen together (R145, R146). -/
def execNext (s : State) : Host.Outcome State Fault Refusal :=
  let y := sampleAt Numerics.ieee s.inst s.phase
  .next (((s.writePhase (advance Numerics.ieee s.inst s.phase s.pinc)).writeSample y).emit y)

end Sys2Proof.Machine
end

