-- ==== Sys2Proof/Machine/Dispatch.lean ====
section
/-!
DEFINITION. One arm per command of the block.
-/

namespace Sys2Proof.Machine

def exec (i : Instr) (s : State) : Host.Outcome State Fault Refusal :=
  match i with
  | .idle => Sys2Proof.Machine.execIdle s
  | .next => Sys2Proof.Machine.execNext s
  | .setf f => Sys2Proof.Machine.execSetf f s

end Sys2Proof.Machine
end

