-- ==== Sys2Proof/Machine/Step.lean ====
section
/-!
DEFINITION. One step: the next input is taken and is a reset event or one complete command (00_scope.md R14,
20_memory.md R54).
-/

namespace Sys2Proof.Machine

/-- What an event does: a reset event resets (70_reset_and_hazards.md R200), a command is executed whole. -/
def applyEvent (e : Event) (s : State) : Host.Outcome State Fault Refusal :=
  match e with
  | .reset => .next s.resetEvent
  | .command i => exec i s

/-- One step of the machine. It always answers a next state (60_exceptions.md R180). -/
def step (s : State) : Host.Outcome State Fault Refusal :=
  applyEvent s.fetch.1.event s.fetch.2

/-- For the host: `s` with the word of `nbits` bits and value `w` presented as the next input (log 3). -/
def State.withFetchWord (s : State) (nbits w : Nat) : State := s.presentNumber nbits w

end Sys2Proof.Machine
end

