-- ==== Sys2Proof/Machine/Run.lean ====
section
/-!
DEFINITION. Runs over a finite list of inputs (00_scope.md R14, 70_reset_and_hazards.md R214): the observation at the
end of the list is the final state with its sample stream.
-/

namespace Sys2Proof.Machine

/-- The state after a command; every command answers one (60_exceptions.md R180). -/
def State.after (s : State) (i : Instr) : State :=
  match exec i s with
  | .next t => t
  | .fault _ => s
  | .refused _ => s

/-- The state after one input, a reset event or an accepted command word. -/
def State.apply (s : State) (p : Pins) : State :=
  match applyEvent p.event s with
  | .next t => t
  | .fault _ => s
  | .refused _ => s

/-- The state after a list of inputs, first to last (00_scope.md R14). -/
def State.play (s : State) (ps : List Pins) : State := ps.foldl State.apply s

/-- The input is an accepted NEXT. -/
def Pins.isNext (p : Pins) : Bool := p.event == .command .next

end Sys2Proof.Machine
end

