-- ==== Sys2Proof/Machine/Clock.lean ====
section
/-!
DEFINITION. The pins' view: the same block clock edge by clock edge, with the handshake of 10_state.md R29, the strobe
of R25 and the abandonment of a command by reset (60_exceptions.md R183). Latencies are free values
(70_reset_and_hazards.md R212): nothing here says how long anything takes (log 5). The architecture is `Machine.step`;
this view only says which presented words become its steps, and when its results show.
-/

namespace Sys2Proof.Machine

/-- What the block is doing in a clock cycle. -/
inductive Activity where
  /-- After a reset event, for `left` more cycles than this one: `cmd_ready` is 0 (70_reset_and_hazards.md R200). -/
  | recovering (left : Nat)
  /-- No command is executing. -/
  | ready
  /-- An accepted command is executing for `left` more cycles than this one. -/
  | busy (i : Instr) (left : Nat)
  /-- The cycle in which SAMPLE first shows a NEXT's value and `sample_valid` is 1 (10_state.md R25); `after` is the
  state that stands when this cycle has passed without a reset (log 11). -/
  | strobe (after : State)
  deriving DecidableEq, Repr

/-- The block in a clock cycle. `regs` is the state that the finished commands and reset events have left. -/
structure Clocked where
  regs : State
  act : Activity
  /-- The MODEL's counter of the commands accepted and the reset events: each draw of a free latency has a new value. -/
  tick : Nat
  deriving DecidableEq, Repr

/-- What the free values may depend on at a tick in a state (log 5). -/
def State.situation (s : State) (tick : Nat) : Situation := ⟨tick, s.inst, s.phase, s.pinc, s.sample⟩

/-- The same of a block in a clock cycle; in the strobe cycle the registers are those from before the NEXT. -/
def Clocked.situation (c : Clocked) : Situation := c.regs.situation c.tick

/-- The output ports in one cycle (10_state.md R28). -/
structure Outputs where
  cmdReady : Bool
  sampleValid : Bool
  sampleData : F32
  deriving DecidableEq, Repr

/-- No command is executing any more in this cycle. -/
def Clocked.free (c : Clocked) : Bool :=
  match c.act with
  | .ready => true
  | .strobe _ => Config.readyInStrobe c.situation
  | .busy _ _ => false
  | .recovering _ => false

/-- The outputs: `cmd_ready` and `sample_valid` are 0 while `rst = 1` (10_state.md R25, R29); `sample_data` is SAMPLE
(R24). In a would-be strobe cycle with `rst = 1` the spec does not say whether SAMPLE still shows the old value, since the
abandoned NEXT writes nothing (60_exceptions.md R183), or already the new one: DESIGN CHOICE, a free value decides
(log 11). -/
def Clocked.outputs (c : Clocked) (p : Pins) : Outputs where
  cmdReady := !p.rst && c.free
  sampleValid := !p.rst && (match c.act with | .strobe _ => true | _ => false)
  sampleData := match c.act with
    | .strobe t => if p.rst && !Config.sampleInAbandonedStrobe c.situation then c.regs.sample else t.sample
    | _ => c.regs.sample

/-- A word is accepted at an edge with `rst = 0`, `cmd_valid = 1` and `cmd_ready = 1` (10_state.md R29). -/
def Clocked.accepts (c : Clocked) (p : Pins) : Bool :=
  !p.rst && CmdWord.valid p.word && (c.outputs p).cmdReady

/-- The completion of a command: NEXT shows its sample for one cycle, SETF is done (10_state.md R25). -/
def Clocked.complete (i : Instr) (s : State) (tick : Nat) : Clocked :=
  match i with
  | .next => ⟨s, .strobe (s.after .next), tick⟩
  | .idle => ⟨s.after .idle, .ready, tick⟩
  | .setf f => ⟨s.after (.setf f), .ready, tick⟩

/-- How many whole cycles an accepted command keeps the block busy before its completion: free, and free to differ with
the state and the operand (70_reset_and_hazards.md R212). That two runs in which the same command is accepted at the same
tick, in the same registers, take the same time is the model's (DESIGN CHOICE, log 5). -/
def extraCycles (i : Instr) (q : Situation) : Nat :=
  match i with
  | .idle => 0
  | .next => Config.latNext q
  | .setf f => Config.latSetf q f

/-- An edge at which the block is free and `rst = 0`: a presented command begins, or nothing happens
(10_state.md R29). -/
def Clocked.take (s : State) (tick : Nat) (w : CmdWord) : Clocked :=
  if CmdWord.valid w then
    match extraCycles (decode w) (s.situation tick) with
    | 0 => Clocked.complete (decode w) s (tick + 1)
    | k + 1 => ⟨s, .busy (decode w) k, tick + 1⟩
  else ⟨s, .ready, tick⟩

/-- One rising clock edge. With `rst = 1` a command in execution is abandoned (60_exceptions.md R183), also a NEXT in its
strobe cycle (DEDUCED, log 11). -/
def Clocked.edge (c : Clocked) (p : Pins) : Clocked :=
  if p.rst then ⟨c.regs.resetEvent, .recovering (Config.recovery c.situation), c.tick + 1⟩
  else
    match c.act with
    | .recovering 0 => ⟨c.regs, .ready, c.tick⟩
    | .recovering (k + 1) => ⟨c.regs, .recovering k, c.tick⟩
    | .ready => Clocked.take c.regs c.tick p.word
    | .busy i 0 => Clocked.complete i c.regs c.tick
    | .busy i (k + 1) => ⟨c.regs, .busy i k, c.tick⟩
    | .strobe t =>
      if Config.readyInStrobe c.situation then Clocked.take t c.tick p.word else ⟨t, .ready, c.tick⟩

/-- What the consumer knows after watching its own pins and the strobes: the steps that have certainly happened, and an
accepted word whose command may still be executing. -/
structure Watch where
  done : List Pins
  pending : Option CmdWord
  deriving DecidableEq, Repr

/-- The pending command is known to have been executed: `sample_valid = 1` is the completion of a NEXT (10_state.md
R25), also where `cmd_ready` is still 0, and `cmd_ready = 1` is that of any command (R29). -/
def Watch.settle (k : Watch) (o : Outputs) : Watch :=
  if o.cmdReady || o.sampleValid then ⟨k.done ++ k.pending.toList.map Pins.present, none⟩ else k

/-- One edge as the consumer sees it: a reset event drops a word that is still pending (60_exceptions.md R183), and a
valid word at `cmd_ready = 1` becomes pending (10_state.md R29). A SETF that completes at the very edge before a reset
event is dropped too: nothing shows it, and the reset event leaves the same registers with and without it. -/
def Watch.see (k : Watch) (p : Pins) (o : Outputs) : Watch :=
  if p.rst then ⟨k.done ++ [p], none⟩
  else if o.cmdReady && CmdWord.valid p.word then { k.settle o with pending := some p.word }
  else k.settle o

/-- A run of the pins' view beside its consumer, who also collects `sample_data` in the cycles with
`sample_valid = 1`. -/
def Clocked.run (c : Clocked) (k : Watch) (heard : List F32) : List Pins → Clocked × Watch × List F32
  | [] => (c, k, heard)
  | p :: rest =>
    let o := c.outputs p
    (c.edge p).run (k.see p o) (if o.sampleValid then heard ++ [o.sampleData] else heard) rest

/-- The steps the consumer counts at the end of a run: the certain ones, and the pending one if the block has become
ready. -/
def Clocked.steps (c : Clocked) (k : Watch) : List Pins :=
  match c.act with
  | .ready => k.done ++ k.pending.toList.map Pins.present
  | .strobe _ => k.done
  | .busy _ _ => k.done
  | .recovering _ => k.done

end Sys2Proof.Machine
end

