-- ==== Sys2Proof/Machine/Listing.lean ====
section
/-!
DEFINITION. Command listings (30_encoding.md R76, R77): what their lines expand to. The hardware knows nothing of them;
Machine/Reader.lean reads them from characters (log 14).
-/

namespace Sys2Proof.Machine

/-- A literal operand of SETF (30_encoding.md R76). -/
inductive Literal where
  /-- `0x` and eight hexadecimal digits: the pattern itself. -/
  | pattern (b : F32)
  /-- A decimal number: sign, digits and a power of ten, `± digits * 10 ^ exp10`. -/
  | decimal (neg : Bool) (digits : Nat) (exp10 : Int)
  /-- `+Inf`. -/
  | posInf
  /-- `-Inf`. -/
  | negInf
  /-- `NaN`. -/
  | nan
  deriving DecidableEq, Repr

/-- The real number a decimal literal denotes, as the exact value that is rounded. -/
def decimalExact (neg : Bool) (digits : Nat) (exp10 : Int) : F32.Exact :=
  if 0 ≤ exp10 then ⟨neg, digits * 10 ^ exp10.toNat * 2 ^ 149, 1⟩
  else ⟨neg, digits * 2 ^ 149, 10 ^ (-exp10).toNat⟩

/-- The pattern a literal denotes (30_encoding.md R76): a decimal one is rounded to nearest, ties to even, and `-0.0`
gives `0x80000000`. -/
def Literal.enc : Literal → F32
  | .pattern b => b
  | .decimal neg digits exp10 => F32.round32 (decimalExact neg digits exp10) neg
  | .posInf => 0x7F800000#32
  | .negInf => 0xFF800000#32
  | .nan => 0x7FC00000#32

/-- One line of a listing, a directive of R77 included. -/
inductive Line where
  | idle
  | next
  | setf (lit : Literal)
  /-- `NEXT *k`. -/
  | nextTimes (k : Nat)
  /-- `IDLE *k`. -/
  | idleTimes (k : Nat)
  /-- `WORD 0x…`: a raw command word, canonical or not. -/
  | word (w : CmdWord)
  /-- `RESET`: one clock cycle with `rst = 1`. -/
  | reset
  deriving DecidableEq, Repr

/-- One clock cycle with `rst = 1`. -/
def Pins.resetCycle : Pins := ⟨true, 0#34⟩

/-- What a line presents to the block (30_encoding.md R76, R77). -/
def Line.expand : Line → List Pins
  | .idle => [Pins.present (encode .idle)]
  | .next => [Pins.present (encode .next)]
  | .setf lit => [Pins.present (encode (.setf lit.enc))]
  | .nextTimes k => List.replicate k (Pins.present (encode .next))
  | .idleTimes k => List.replicate k (Pins.present (encode .idle))
  | .word w => [Pins.present w]
  | .reset => [Pins.resetCycle]

/-- `TABLE=<sine or list>` of the `.config` directive. -/
inductive TableSpec where
  | sine
  | list (entries : List F32)
  deriving DecidableEq, Repr

/-- The entries that a `TABLE=` names for `n` entries. -/
def TableSpec.entries (n : Nat) : TableSpec → List F32
  | .sine => sineTable n
  | .list es => es

/-- A listing: the parameters of its `.config` directive, or their defaults, and its lines. -/
structure Listing where
  n : Nat := 64
  sampleRate : Nat := 44100
  table : TableSpec := .sine
  lines : List Line
  deriving DecidableEq, Repr

/-- All the inputs of a listing; it starts, implicitly or explicitly, with RESET (30_encoding.md R77). -/
def Listing.pins (l : Listing) : List Pins :=
  let ps := l.lines.flatMap Line.expand
  if l.lines.head? = some .reset then ps else Pins.resetCycle :: ps

/-- The state in which a listing's run begins, its inputs waiting; or why its parameters have no configuration. -/
def Listing.load (l : Listing) : Except ConfigError State :=
  match Config.elaborate l.n l.sampleRate (l.table.entries l.n) with
  | .ok c => .ok { State.reset with inst := c, inputs := l.pins }
  | .error e => .error e

end Sys2Proof.Machine
end

