-- ==== Sys2Proof/Safety.lean ====
section
/-!
DEFINITION. The terms claims are stated in: what a correct rounding is, the ranges the spec promises for the three
registers, and the invariant of a run.
-/

namespace Sys2Proof

/-- `r` is the real `x` correctly rounded to binary32, to nearest with ties to even (40_numerics.md R92, in words and
not as its algorithm): an infinity from `2^128 - 2^103` on; otherwise a finite value that no finite value beats, with
an even pattern where another one is as near; the sign is that of `x`. -/
def F32.RoundsTo (x : ℚ) (r : F32) : Prop :=
  F32.isNaN r = false ∧
  (F32.isInf r = true ↔ (2 : ℚ) ^ 128 - 2 ^ 103 ≤ |x|) ∧
  (x = 0 → F32.isZero r = true) ∧
  (x ≠ 0 → F32.sign r = decide (x < 0)) ∧
  (F32.isFinite r = true → ∀ b : F32, F32.isFinite b = true →
    |F32.val r - x| ≤ |F32.val b - x| ∧
    (|F32.val b - x| = |F32.val r - x| → F32.val b = F32.val r ∨ r.getLsbD 0 = false))

/-- The integer part of a rational, rounded toward zero (40_numerics.md R98). -/
def truncQ (q : ℚ) : ℤ := if 0 ≤ q then ⌊q⌋ else ⌈q⌉

namespace Machine

/-- 10_state.md R22 case (a): `0x00000000 ≤ PHASE ≤ PRED_N` as unsigned integers. -/
abbrev PhaseInRange (c : Config) (p : F32) : Prop := p.toNat ≤ c.predN.toNat

/-- 10_state.md R22: in range, or the canonical NaN. -/
abbrev PhaseLegal (c : Config) (p : F32) : Prop := PhaseInRange c p ∨ p = F32.cnan

/-- 40_numerics.md R93: if it is a NaN, it is the canonical one. -/
abbrev NaNCanonical (v : F32) : Prop := F32.isNaN v = true → v = F32.cnan

/-- 42_sample_generation.md R143: finite with magnitude at most 2, or the canonical NaN. -/
abbrev SampleLegal (v : F32) : Prop :=
  (F32.isFinite v = true ∧ F32.units v ≤ 2 * 2 ^ 149) ∨ v = F32.cnan

/-- The invariant of a run: PHASE legal (10_state.md R22), PINC a value SETF can produce (R23), SAMPLE and every
emitted sample legal (42_sample_generation.md R143, 40_numerics.md R93). -/
abbrev State.Inv (s : State) : Prop :=
  PhaseLegal s.inst s.phase ∧ NaNCanonical s.pinc ∧ SampleLegal s.sample ∧ ∀ v ∈ s.stream, SampleLegal v

end Machine

end Sys2Proof
end

