-- ==== Sys2Proof/Certificates/Slice0/Obligations.lean ====
section
/-!
DEFINITION. The statements for the provers, each taken from the numbered rules of spec/. Equality of patterns is
equality of bits (00_scope.md R12); values are read through `F32.val`.
-/

open Sys2Proof Sys2Proof.Machine

/-! ### The command word -/

/-- R78: the encoding function, decoding undoes it on every command, and encoding undoes decoding exactly on the
canonical words. -/
def Obligations.DecodeInvertsEncode : Prop :=
  (encode .idle).toNat = 0x000000000 ∧ (encode .next).toNat = 0x200000000 ∧
  (∀ f : F32, (encode (.setf f)).toNat = 0x300000000 + f.toNat) ∧
  (∀ i : Instr, decode (encode i) = i) ∧
  (∀ w : CmdWord, encode (decode w) = w ↔ canonical w = true)

/-- The opcode map of R73: each word is selected by exactly one row, and that row's command is what it decodes to. -/
def Obligations.OpcodeRowsPartitionTheWords : Prop :=
  ∀ w : CmdWord,
    (OpcodeRow.idle.selects w = true ↔ decode w = .idle) ∧
    (OpcodeRow.next.selects w = true ↔ decode w = .next) ∧
    (OpcodeRow.setf.selects w = true ↔ decode w = .setf (w.extractLsb' 0 32)) ∧
    (OpcodeRow.idle.selects w = true ∨ OpcodeRow.next.selects w = true ∨ OpcodeRow.setf.selects w = true) ∧
    ¬(OpcodeRow.idle.selects w = true ∧ OpcodeRow.next.selects w = true) ∧
    ¬(OpcodeRow.idle.selects w = true ∧ OpcodeRow.setf.selects w = true) ∧
    ¬(OpcodeRow.next.selects w = true ∧ OpcodeRow.setf.selects w = true)

/-- The ignored bits of R74: two words that agree on the bits their row reads make the same step. -/
def Obligations.IgnoredBitsHaveNoEffect : Prop :=
  ∀ (s : State) (rest : List Pins) (w v : CmdWord),
    ((w.getLsbD 33 = false ∧ v.getLsbD 33 = false) ∨
     (w.getLsbD 33 = true ∧ v.getLsbD 33 = true ∧ w.getLsbD 32 = false ∧ v.getLsbD 32 = false)) →
    step { s with inputs := ⟨false, w⟩ :: rest } = step { s with inputs := ⟨false, v⟩ :: rest }

/-- Words of the spec's vector group V1 decode to their commands. -/
def Obligations.ListedWordsDecode : Prop :=
  decode 0x1FFFFFFFF#34 = .idle ∧ decode 0x0341F0000#34 = .idle ∧ decode 0x2DEADBEEF#34 = .next ∧
  decode 0x341F00000#34 = .setf 0x41F00000#32 ∧ decode 0x3C3AC4400#34 = .setf 0xC3AC4400#32 ∧
  decode 0x3FFFFFFFF#34 = .setf 0xFFFFFFFF#32

/-! ### Steps -/

/-- A step takes the next input: a command word is decoded and executed, a reset event resets whatever is presented,
and with no input left the block idles. -/
def Obligations.StepRunsTheDecodedCommand : Prop :=
  (∀ (s : State) (rest : List Pins) (w : CmdWord), s.inputs = ⟨false, w⟩ :: rest →
    step s = exec (decode w) { s with inputs := rest }) ∧
  (∀ (s : State) (rest : List Pins) (w : CmdWord), s.inputs = ⟨true, w⟩ :: rest →
    step s = .next { s with inputs := rest, phase := 0#32, pinc := 0#32, sample := 0#32 }) ∧
  (∀ s : State, s.inputs = [] → step s = exec .idle s)

/-- R180: no command, with any operand, in any state, ends in a fault or a refusal; no step does. -/
def Obligations.EveryCommandAndStepCompletes : Prop :=
  (∀ (i : Instr) (s : State), ∃ t, exec i s = .next t) ∧ (∀ s : State, ∃ t, step s = .next t)

/-- The host's run of `step` over all the inputs of a state is the playing of the list, and leaves no input. -/
def Obligations.RunPlaysTheInputs : Prop :=
  ∀ s : State, Sys2Proof.core.run s.inputs.length s = .next (State.play { s with inputs := [] } s.inputs)

/-- R170: IDLE does nothing; every word with `valid = 0` is IDLE, and so is a word that is not accepted; a ready block
that is presented none stays as it is, with `sample_valid` 0; removing the IDLE inputs from any list changes neither
the state nor the sample stream. -/
def Obligations.IdleDoesNothing : Prop :=
  (∀ s : State, exec .idle s = .next s) ∧
  (encode .idle = 0x000000000#34 ∧ ∀ w : CmdWord, w.getLsbD 33 = false → decode w = .idle) ∧
  (∀ (c : Clocked) (w : CmdWord), (c.outputs ⟨false, w⟩).cmdReady = false →
    c.edge ⟨false, w⟩ = c.edge Pins.quiet) ∧
  (∀ (s : State) (tick : Nat) (w : CmdWord) (p : Pins), w.getLsbD 33 = false →
    (Clocked.edge ⟨s, .ready, tick⟩ ⟨false, w⟩).regs = s ∧
    ((Clocked.edge ⟨s, .ready, tick⟩ ⟨false, w⟩).outputs p).sampleValid = false) ∧
  (∀ (s : State) (ps : List Pins), s.play (ps.filter fun p => p.rst || p.word.getLsbD 33) = s.play ps)

/-- R130: SETF for every pattern: its word, its one write with the two operations in order, everything else unchanged,
no `sample_valid` at its completion, and the worked example of the default parameters. -/
def Obligations.SetfWritesTheIncrement : Prop :=
  (∀ f : F32, decode (0x300000000#34 ||| f.setWidth 34) = .setf f) ∧
  (∀ (f : F32) (s : State), exec (.setf f) s =
    .next { s with pinc := F32.fdiv (F32.fmul f (F32.u2f s.inst.n)) (F32.u2f s.inst.sampleRate) }) ∧
  (∀ (f : F32) (s : State) (tick : Nat) (p : Pins),
    ((Clocked.complete (.setf f) s tick).outputs p).sampleValid = false) ∧
  (∀ s : State, s.inst = Config.default → exec (.setf 0x41F00000#32) s = .next { s with pinc := 0x3D32544A#32 })

/-- R140: NEXT in every state: the indices, the weight, the two reads, the four interpolation operations, the wrapped
sum, the two register writes and the emission; PINC, the ROM and the inputs unchanged; and the worked example. -/
def Obligations.NextEmitsTheInterpolatedSample : Prop :=
  (∀ w : CmdWord, w.getLsbD 33 = true → w.getLsbD 32 = false → decode w = .next) ∧
  (∀ s : State,
    let i0 := F32.f2idx s.inst.n s.phase
    let i1 := if i0 = s.inst.n - 1 then 0 else i0 + 1
    let w := F32.fsub s.phase (F32.u2f i0)
    let u := F32.fsub 0x3F800000#32 w
    let y := F32.fadd (F32.fmul u (romRead s.inst i0)) (F32.fmul w (romRead s.inst i1))
    exec .next s = .next { s with
      phase := Numerics.ieee.wrap (F32.u2f s.inst.n) (F32.fadd s.phase s.pinc)
      sample := y
      stream := s.stream ++ [y] }) ∧
  (∀ s : State, s.inst = Config.default → s.phase = 0x3D32544A#32 → s.pinc = 0x3D32544A#32 →
    exec .next s = .next { s with
      phase := 0x3DB2544A#32, sample := 0x3B8BD5A8#32, stream := s.stream ++ [0x3B8BD5A8#32] })

/-- R30: who reads and writes what. IDLE: nothing. SETF writes PINC only and reads no register. NEXT writes PHASE and
SAMPLE only, and reads PHASE, PINC and the ROM, not SAMPLE. A reset event writes all three registers and reads none. -/
def Obligations.CommandsTouchOnlyTheirRegisters : Prop :=
  ∀ s t : State, s.inst = t.inst →
    (s.apply ⟨false, encode .idle⟩ = s) ∧
    (∀ f : F32,
      let a := s.apply ⟨false, encode (.setf f)⟩
      a = { s with pinc := a.pinc } ∧ a.pinc = (t.apply ⟨false, encode (.setf f)⟩).pinc) ∧
    (let a := s.apply ⟨false, encode .next⟩
     let b := t.apply ⟨false, encode .next⟩
     a = { s with phase := a.phase, sample := a.sample, stream := s.stream ++ [a.sample] } ∧
     (s.phase = t.phase → a.sample = b.sample) ∧
     (s.phase = t.phase → s.pinc = t.pinc → a.phase = b.phase)) ∧
    (∀ w : CmdWord,
      let a := s.apply ⟨true, w⟩
      let b := t.apply ⟨true, w⟩
      a = { s with phase := a.phase, pinc := a.pinc, sample := a.sample } ∧
      a.phase = b.phase ∧ a.pinc = b.pinc ∧ a.sample = b.sample)

/-- R48: whatever is presented, `ROM[i]` returns the same word at every index in range, and the parameters stay. -/
def Obligations.RomNeverChanges : Prop :=
  ∀ (s : State) (ps : List Pins),
    (s.play ps).inst = s.inst ∧ ∀ i : Nat, i < s.inst.n → romRead (s.play ps).inst i = romRead s.inst i

/-- A read at an index in range is the table entry (R47), the cyclic reading has period `N` (R46), and the upper index
reads the cyclic successor. -/
def Obligations.RomReadsTheTableCyclically : Prop :=
  ∀ c : Config,
    (∀ i : Nat, i < c.n → c.table[i]? = some (romRead c i)) ∧
    (∀ j : Nat, romCyclic c (j + c.n) = romCyclic c j) ∧
    (∀ p : F32, romRead c (highIndex Numerics.ieee c p) = romCyclic c (lowIndex Numerics.ieee c p + 1))

/-! ### Reset -/

/-- What reset leaves (R31 to R33, R35): the three registers at +0.0 and an empty sample stream at the start of a run. -/
def Obligations.ResetStateIsAllZero : Prop :=
  State.reset.phase = 0x00000000#32 ∧ State.reset.pinc = 0x00000000#32 ∧ State.reset.sample = 0x00000000#32 ∧
  State.reset.stream = []

/-- R31 and R203: a reset event, whatever word is presented with it and whatever came before, leaves the three
registers at +0.0, keeps the parameters, the ROM and the samples emitted, and emits nothing. -/
def Obligations.ResetEventWinsAndClears : Prop :=
  ∀ (s : State) (w : CmdWord) (ps : List Pins),
    (s.play ps).apply ⟨true, w⟩ = { s.play ps with phase := 0#32, pinc := 0#32, sample := 0#32 } ∧
    s.play [⟨true, w⟩, ⟨true, w⟩] = s.play [⟨true, w⟩]

/-- R32: with PHASE and PINC as reset leaves them, any number of NEXT returns `TABLE[0]` each time and leaves PHASE at
+0.0. The returned pattern is that of `TABLE[0]`; for a zero entry it is `+0.0`, but `-0.0` for an entry `-0.0` with an
upper neighbour of sign 1 (R150); in the default table it is `0x00000000`. -/
def Obligations.NextBeforeSetfReturnsEntryZero : Prop :=
  ∀ (s : State) (k : Nat),
    let r := s.resetEvent.play (List.replicate k (Pins.present (encode .next)))
    let t0 := romRead s.inst 0
    let t1 := romRead s.inst (1 % s.inst.n)
    let y := if F32.isZero t0 = false then t0
      else if t0 = 0x80000000#32 ∧ F32.sign t1 = true then 0x80000000#32 else 0x00000000#32
    r.phase = 0x00000000#32 ∧ r.pinc = 0x00000000#32 ∧ F32.val y = F32.val t0 ∧
    r.stream = s.stream ++ List.replicate k y ∧
    (s.inst = Config.default → r.stream = s.stream ++ List.replicate k 0x00000000#32)

/-! ### Invariants and runs -/

/-- The invariant of Safety.lean holds after reset, in every copy of the hardware. -/
def Obligations.InvariantHoldsAtReset : Prop :=
  State.reset.Inv ∧ ∀ c : Config, State.Inv { State.reset with inst := c }

/-- Every step keeps the invariant: PHASE in `[0, N)` or the canonical NaN, PINC never another NaN, SAMPLE and every
emitted sample finite with magnitude at most 2 or the canonical NaN. -/
def Obligations.EveryStepKeepsTheInvariant : Prop :=
  ∀ s t : State, s.Inv → step s = .next t → t.Inv

/-- R22: after reset and after every input PHASE is in `[0, PRED_N]` as an unsigned integer, and then a finite value of
sign 0 below `N`, or the canonical NaN; the NaN comes only from a NEXT executed with a PINC that is not finite, and
stays until reset. -/
def Obligations.PhaseStaysInTableOrNaN : Prop :=
  (∀ (c : Config) (ps : List Pins), PhaseLegal c (State.play { State.reset with inst := c } ps).phase) ∧
  (∀ (c : Config) (p : F32), PhaseInRange c p ↔
    F32.isFinite p = true ∧ F32.sign p = false ∧ F32.val p < c.n) ∧
  (∀ (s : State) (p : Pins), PhaseLegal s.inst s.phase →
    PhaseLegal s.inst (s.apply p).phase ∧
    (PhaseInRange s.inst s.phase → (s.apply p).phase = F32.cnan → p.isNext = true ∧ F32.isFinite s.pinc = false) ∧
    (s.phase = F32.cnan → p.rst = false → (s.apply p).phase = F32.cnan) ∧
    (p.rst = true → (s.apply p).phase = 0x00000000#32))

/-- R153: for a finite increment of either sign and any magnitude, PHASE is in `[0, N)` after any number of NEXT; and
the rule's example of an absorbed increment. -/
def Obligations.LongRunPhaseStability : Prop :=
  (∀ (s : State) (m : Nat), PhaseInRange s.inst s.phase → F32.isFinite s.pinc = true →
    PhaseInRange s.inst (s.play (List.replicate m (Pins.present (encode .next)))).phase) ∧
  advance Numerics.ieee Config.default 0x3F800000#32 0x2EDBE6FF#32 = 0x3F800000#32

/-- R149: a NEXT with an increment that is not finite still returns the finite sample of the current phase, the one any
other increment would have given, and makes PHASE the canonical NaN; from then on every NEXT returns the canonical NaN
and PHASE stays, whatever is presented, until a reset event; a SETF repairs PINC only. -/
def Obligations.NaNPhaseIsStickyUntilReset : Prop :=
  (∀ s : State, PhaseInRange s.inst s.phase → F32.isFinite s.pinc = false →
    ∃ t, exec .next s = .next t ∧ t.phase = F32.cnan ∧ F32.isFinite t.sample = true ∧
      ∀ v : F32, ∃ u, exec .next { s with pinc := v } = .next u ∧ u.sample = t.sample) ∧
  (∀ (s : State) (ps : List Pins), s.phase = F32.cnan → (∀ p ∈ ps, p.rst = false) →
    (s.play ps).phase = F32.cnan ∧
    (s.play ps).stream = s.stream ++ List.replicate (ps.countP Pins.isNext) F32.cnan) ∧
  (∀ (s : State) (f : F32), s.phase = F32.cnan →
    exec (.setf f) s = .next { s with pinc := increment Numerics.ieee s.inst f }) ∧
  (∀ (s : State) (w : CmdWord), s.phase = F32.cnan → (s.apply ⟨true, w⟩).phase = 0x00000000#32) ∧
  (∀ c : Config, lowIndex Numerics.ieee c F32.cnan = 0 ∧ highIndex Numerics.ieee c F32.cnan = 1 % c.n)

/-- Each accepted NEXT emits exactly one sample, nothing else emits, and no sample emitted is recalled. -/
def Obligations.OneSamplePerNext : Prop :=
  ∀ (s : State) (ps : List Pins), ∃ new : List F32,
    (s.play ps).stream = s.stream ++ new ∧ new.length = ps.countP Pins.isNext

/-- R24: SAMPLE holds the value of the most recent NEXT since reset, or +0.0 if there has been none, and drives
`sample_data`. -/
def Obligations.SampleHoldsTheLastNext : Prop :=
  ∀ (s : State) (ps : List Pins), (∀ p ∈ ps, p.rst = false) →
    let r := s.resetEvent.play ps
    r.sampleData = r.sample ∧
    r.sample = ((r.stream.drop s.stream.length).getLast?).getD 0x00000000#32

/-- R145: the samples of consecutive NEXT are those at the phases reached after 0, 1, 2, … advances: the sample comes
before the advance, does not depend on PINC, and the new phase does not depend on the ROM. -/
def Obligations.SampleComesBeforeTheAdvance : Prop :=
  (∀ (s : State) (k : Nat),
    let r := s.play (List.replicate k (Pins.present (encode .next)))
    let phaseAfter := fun j : Nat => (fun p => advance Numerics.ieee s.inst p s.pinc)^[j] s.phase
    r.phase = phaseAfter k ∧
    r.stream = s.stream ++ (List.range k).map (fun j => sampleAt Numerics.ieee s.inst (phaseAfter j))) ∧
  (∀ (s : State) (v : F32), (State.after { s with pinc := v } .next).sample = (s.after .next).sample) ∧
  (∀ (s : State) (c : Config), c.n = s.inst.n →
    (State.after { s with inst := c } .next).phase = (s.after .next).phase)

/-- R133: a SETF acts on the advance of later NEXT only: the first sample after it is what it would have been without
it, a NEXT before it is untouched, and of two SETF in a row the first has no lasting effect. -/
def Obligations.SetfShowsOneSampleLater : Prop :=
  ∀ (s : State) (f g : F32),
    ((s.after (.setf f)).after .next).sample = (s.after .next).sample ∧
    ((s.after (.setf f)).after .next).phase =
      advance Numerics.ieee s.inst s.phase (increment Numerics.ieee s.inst f) ∧
    ((s.after .next).after (.setf f)).phase = (s.after .next).phase ∧
    ((s.after .next).after (.setf f)).sample = (s.after .next).sample ∧
    (s.after (.setf f)).after (.setf g) = s.after (.setf g)

/-! ### SETF -/

/-- R135: 30 Hz at the default parameters gives the pattern of the rule, which is 0.04354 to four significant digits. -/
def Obligations.ThirtyHertzIncrement : Prop :=
  ∀ s : State, s.inst.n = 64 → s.inst.sampleRate = 44100 →
    exec (.setf 0x41F00000#32) s = .next { s with pinc := 0x3D32544A#32 } ∧
    |F32.val 0x3D32544A#32 - 4354 / 100000| < 5 / 1000000

/-- The bound of R131 and 90_conflicts.md C2, C6: at `N = 64` the product of SETF is an infinity exactly for the
patterns with magnitude bits from `0x7C800000` on that are no NaN; then PINC is the infinity of the operand's sign, and
otherwise it is finite. -/
def Obligations.FrequencyOverflowBound : Prop :=
  ∀ (f : F32) (s : State), s.inst.n = 64 → F32.isNaN f = false →
    (F32.isInf (F32.fmul f (F32.u2f s.inst.n)) = true ↔ 0x7C800000 ≤ (f.extractLsb' 0 31).toNat) ∧
    (0x7C800000 ≤ (f.extractLsb' 0 31).toNat → (s.after (.setf f)).pinc = F32.inf (F32.sign f)) ∧
    ((f.extractLsb' 0 31).toNat < 0x7C800000 → F32.isFinite (s.after (.setf f)).pinc = true)

/-! ### NEXT -/

/-- R141: the indexer in every state: both indices in range, `i1` the successor modulo `N`, 0 exactly after `N - 1`;
`floor` of a phase in range; 0 and `1 mod N` for the canonical NaN. -/
def Obligations.IndexerIsFloorAndSuccessor : Prop :=
  ∀ (c : Config) (p : F32),
    let i0 := lowIndex Numerics.ieee c p
    let i1 := highIndex Numerics.ieee c p
    i0 < c.n ∧ i1 < c.n ∧ i1 = (i0 + 1) % c.n ∧ (i1 = 0 ↔ i0 = c.n - 1) ∧
    (PhaseInRange c p → (i0 : ℤ) = ⌊F32.val p⌋) ∧
    (p = F32.cnan → i0 = 0 ∧ i1 = 1 % c.n)

/-- R142: the weight is the exact fractional part: sign 0, in `[0, 1)`, `+0.0` exactly at the integers; the canonical
NaN for the canonical NaN. -/
def Obligations.WeightIsTheExactFraction : Prop :=
  ∀ c : Config,
    (∀ p : F32, PhaseInRange c p →
      let w := weight Numerics.ieee c p
      F32.isFinite w = true ∧ F32.sign w = false ∧ F32.val w = F32.val p - lowIndex Numerics.ieee c p ∧
      0 ≤ F32.val w ∧ F32.val w < 1 ∧ (w = 0x00000000#32 ↔ ∃ k : ℤ, F32.val p = k)) ∧
    weight Numerics.ieee c F32.cnan = F32.cnan

/-- R143: the interpolator's four operations in order, and the bounds of its intermediate values for a phase in range. -/
def Obligations.InterpolatedSampleIsBounded : Prop :=
  ∀ (c : Config) (p : F32), PhaseInRange c p →
    let t0 := romRead c (lowIndex Numerics.ieee c p)
    let t1 := romRead c (highIndex Numerics.ieee c p)
    let w := weight Numerics.ieee c p
    let u := F32.fsub F32.one w
    let y := sampleAt Numerics.ieee c p
    y = F32.fadd (F32.fmul u t0) (F32.fmul w t1) ∧
    0 < F32.val u ∧ F32.val u ≤ 1 ∧ 0 ≤ F32.val w ∧ F32.val w < 1 ∧ |F32.val t0| ≤ 1 ∧ |F32.val t1| ≤ 1 ∧
    |F32.val (F32.fmul u t0)| ≤ 1 ∧ |F32.val (F32.fmul w t1)| ≤ 1 ∧ F32.isFinite y = true ∧ |F32.val y| ≤ 2

/-- R144: the accumulator: the sum is correctly rounded and finite for a finite increment, the new phase is in range,
and for a sum in `[0, 2N)` it is the conditional subtraction, bit for bit. -/
def Obligations.AccumulatorWrapsTheRoundedSum : Prop :=
  ∀ (c : Config) (p d : F32), PhaseInRange c p → F32.isFinite d = true →
    let s := F32.fadd p d
    advance Numerics.ieee c p d = Numerics.ieee.wrap c.nf s ∧
    F32.isFinite s = true ∧ F32.RoundsTo (F32.val p + F32.val d) s ∧
    PhaseInRange c (advance Numerics.ieee c p d) ∧
    (0 ≤ F32.val s → F32.val s < 2 * c.n →
      advance Numerics.ieee c p d = (if F32.val s < c.n then s else F32.fsub s c.nf))

/-- R148: with `PINC = -0.0` NEXT leaves PHASE where it is, as with `PINC = +0.0`. -/
def Obligations.NegativeZeroIncrementHoldsPhase : Prop :=
  (∀ (c : Config) (p : F32), PhaseLegal c p → F32.fadd p 0x80000000#32 = p) ∧
  (∀ s : State, PhaseLegal s.inst s.phase → s.pinc = 0x80000000#32 →
    ∃ y : F32, exec .next s = .next { s with sample := y, stream := s.stream ++ [y] } ∧
      exec .next { s with pinc := 0x00000000#32 } =
        .next { s with pinc := 0x00000000#32, sample := y, stream := s.stream ++ [y] })

/-- R150: at an integer phase the sample is the table entry, bit for bit where the entry is not a zero; a zero entry
gives `-0.0` only when it is `-0.0` with a neighbour of sign 1. In the default table every entry is returned exactly. -/
def Obligations.IntegerPhaseReturnsTheEntry : Prop :=
  (∀ (c : Config) (p : F32) (i : Nat), i < c.n → PhaseInRange c p → F32.val p = i →
    let t0 := romRead c i
    let t1 := romRead c ((i + 1) % c.n)
    let y := sampleAt Numerics.ieee c p
    (F32.isZero t0 = false → y = t0) ∧
    (F32.isZero t0 = true →
      y = if t0 = 0x80000000#32 ∧ F32.sign t1 = true then 0x80000000#32 else 0x00000000#32)) ∧
  (∀ i : Nat, i < 64 → sampleAt Numerics.ieee Config.default (F32.u2f i) = romRead Config.default i)

/-- R151: halfway between two entries, neither of them subnormal or below `2^-125` in magnitude unless zero, the sample
is their mean rounded once; so it is for every midpoint of the default table. -/
def Obligations.MidpointIsTheRoundedMean : Prop :=
  (∀ (c : Config) (p : F32) (i : Nat), i < c.n → PhaseInRange c p → F32.val p = i + 1 / 2 →
    let t0 := romRead c i
    let t1 := romRead c ((i + 1) % c.n)
    let w := weight Numerics.ieee c p
    w = 0x3F000000#32 ∧ F32.fsub F32.one w = 0x3F000000#32 ∧
    ((F32.val t0 = 0 ∨ (2 : ℚ) ^ (-125 : ℤ) ≤ |F32.val t0|) →
     (F32.val t1 = 0 ∨ (2 : ℚ) ^ (-125 : ℤ) ≤ |F32.val t1|) →
      F32.RoundsTo ((F32.val t0 + F32.val t1) / 2) (sampleAt Numerics.ieee c p))) ∧
  (∀ (p : F32) (i : Nat), i < 64 → F32.isFinite p = true → F32.val p = i + 1 / 2 →
    F32.RoundsTo ((F32.val (romRead Config.default i) + F32.val (romRead Config.default ((i + 1) % 64))) / 2)
      (sampleAt Numerics.ieee Config.default p))

/-- R152: in the last table step the sample interpolates `TABLE[N-1]` and `TABLE[0]`, and a sum in `[N, 2N)` is brought
back by exactly `N`, to a phase in range. -/
def Obligations.LastStepClosesTheCycle : Prop :=
  ∀ c : Config,
    (∀ p : F32, PhaseInRange c p → (c.n : ℚ) - 1 ≤ F32.val p →
      lowIndex Numerics.ieee c p = c.n - 1 ∧ highIndex Numerics.ieee c p = 0 ∧
      sampleAt Numerics.ieee c p =
        interpolate Numerics.ieee (weight Numerics.ieee c p) (romRead c (c.n - 1)) (romRead c 0)) ∧
    (∀ s : F32, F32.isFinite s = true → (c.n : ℚ) ≤ F32.val s → F32.val s < 2 * c.n →
      PhaseInRange c (Numerics.ieee.wrap c.nf s) ∧ F32.val (Numerics.ieee.wrap c.nf s) = F32.val s - c.n)

/-! ### Numerics -/

/-- R91: the five classes are exclusive and exhaustive; the extreme values; patterns of sign 0 are ordered as their
values; `neg` flips the sign and nothing else; the constants. -/
def Obligations.ClassesAndOrderOfPatterns : Prop :=
  (∀ b : F32, ([F32.isZero b, F32.isSubnormal b, F32.isNormal b, F32.isInf b, F32.isNaN b].count true = 1) ∧
    (F32.isFinite b = true ↔ F32.isZero b = true ∨ F32.isSubnormal b = true ∨ F32.isNormal b = true)) ∧
  (F32.val 0x7F7FFFFF#32 = (2 ^ 24 - 1) * 2 ^ 104 ∧ ∀ b : F32, F32.val b ≤ F32.val 0x7F7FFFFF#32) ∧
  (F32.val 0x00800000#32 = (2 : ℚ) ^ (-126 : ℤ) ∧ ∀ b : F32, F32.isNormal b = true →
    F32.val 0x00800000#32 ≤ |F32.val b|) ∧
  (F32.val 0x00000001#32 = (2 : ℚ) ^ (-149 : ℤ) ∧ ∀ b : F32, F32.isSubnormal b = true →
    F32.val 0x00000001#32 ≤ |F32.val b|) ∧
  (∀ a b : F32, F32.isFinite a = true → F32.isFinite b = true → F32.sign a = false → F32.sign b = false →
    (a.toNat < b.toNat ↔ F32.val a < F32.val b)) ∧
  (∀ b : F32, F32.sign (F32.neg b) = !F32.sign b ∧ (F32.neg b).extractLsb' 0 31 = b.extractLsb' 0 31 ∧
    F32.val (F32.neg b) = -F32.val b) ∧
  F32.one = 0x3F800000#32 ∧ F32.pzero = 0x00000000#32 ∧ F32.cnan = 0x7FC00000#32 ∧
  F32.val F32.one = 1 ∧ F32.val F32.pzero = 0 ∧ F32.isNaN F32.cnan = true

/-- R92: `round32` is correct rounding to nearest, ties to even, of every real it is given, with the given sign for an
exact zero; a real of magnitude at most `2^-150` rounds to a zero of its sign, and one that has a pattern is returned
unchanged. -/
def Obligations.RoundingIsNearestEven : Prop :=
  ∀ (x : F32.Exact) (s0 : Bool), 0 < x.den →
    F32.RoundsTo x.val (F32.round32 x s0) ∧
    (x.num = 0 → F32.round32 x s0 = F32.zero s0) ∧
    (x.num ≠ 0 → |x.val| ≤ (2 : ℚ) ^ (-150 : ℤ) → F32.round32 x s0 = F32.zero x.neg) ∧
    (∀ b : F32, F32.isFinite b = true → x.num ≠ 0 → F32.val b = x.val → F32.round32 x s0 = b)

/-- R94: `fadd`: NaN, infinities, the sign of an exact zero, correct rounding otherwise; commutative. -/
def Obligations.AdditionRule : Prop :=
  ∀ a b : F32,
    (F32.isNaN a = true ∨ F32.isNaN b = true → F32.fadd a b = F32.cnan) ∧
    (F32.isInf a = true → F32.isInf b = true →
      F32.fadd a b = if F32.sign a = F32.sign b then a else F32.cnan) ∧
    (F32.isInf a = true → F32.isFinite b = true → F32.fadd a b = a) ∧
    (F32.isFinite a = true → F32.isInf b = true → F32.fadd a b = b) ∧
    (F32.isFinite a = true → F32.isFinite b = true →
      (F32.val a + F32.val b = 0 → F32.fadd a b =
        if F32.sign a = true ∧ F32.sign b = true then 0x80000000#32 else 0x00000000#32) ∧
      (F32.val a + F32.val b ≠ 0 → F32.RoundsTo (F32.val a + F32.val b) (F32.fadd a b))) ∧
    F32.fadd a b = F32.fadd b a

/-- R95: `fsub` is addition of the negated operand; `x - x` is `+0.0`, `-0.0 - +0.0` is `-0.0`, equal infinities give
the canonical NaN. -/
def Obligations.SubtractionRule : Prop :=
  (∀ a b : F32, (F32.isNaN a = true ∨ F32.isNaN b = true → F32.fsub a b = F32.cnan) ∧
    (F32.isNaN a = false → F32.isNaN b = false → F32.fsub a b = F32.fadd a (b ^^^ 0x80000000#32))) ∧
  (∀ x : F32, F32.isFinite x = true → F32.fsub x x = 0x00000000#32) ∧
  F32.fsub 0x80000000#32 0x00000000#32 = 0x80000000#32 ∧
  F32.fsub 0x7F800000#32 0x7F800000#32 = F32.cnan

/-- R96: `fmul`: NaN, `Inf * 0` invalid, infinities and zeros with the sign of the operands, correct rounding
otherwise; commutative. -/
def Obligations.MultiplicationRule : Prop :=
  ∀ a b : F32,
    let s := xor (F32.sign a) (F32.sign b)
    (F32.isNaN a = true ∨ F32.isNaN b = true → F32.fmul a b = F32.cnan) ∧
    ((F32.isInf a = true ∧ F32.isZero b = true) ∨ (F32.isZero a = true ∧ F32.isInf b = true) →
      F32.fmul a b = F32.cnan) ∧
    (F32.isNaN a = false → F32.isNaN b = false → F32.isZero a = false → F32.isZero b = false →
      (F32.isInf a = true ∨ F32.isInf b = true) → F32.fmul a b = F32.inf s) ∧
    (F32.isFinite a = true → F32.isFinite b = true →
      (F32.val a * F32.val b = 0 → F32.fmul a b = F32.zero s) ∧
      (F32.val a * F32.val b ≠ 0 → F32.RoundsTo (F32.val a * F32.val b) (F32.fmul a b))) ∧
    F32.fmul a b = F32.fmul b a

/-- R97: `fdiv`: NaN, `Inf / Inf` and `0 / 0` invalid, infinite and zero results with the sign of the operands, correct
rounding otherwise. -/
def Obligations.DivisionRule : Prop :=
  ∀ a b : F32,
    let s := xor (F32.sign a) (F32.sign b)
    (F32.isNaN a = true ∨ F32.isNaN b = true → F32.fdiv a b = F32.cnan) ∧
    (F32.isInf a = true → F32.isInf b = true → F32.fdiv a b = F32.cnan) ∧
    (F32.isInf a = true → F32.isFinite b = true → F32.fdiv a b = F32.inf s) ∧
    (F32.isFinite a = true → F32.isInf b = true → F32.fdiv a b = F32.zero s) ∧
    (F32.isZero a = true → F32.isZero b = true → F32.fdiv a b = F32.cnan) ∧
    (F32.isFinite a = true → F32.isZero a = false → F32.isZero b = true → F32.fdiv a b = F32.inf s) ∧
    (F32.isFinite a = true → F32.isFinite b = true → F32.isZero b = false →
      (F32.val a = 0 → F32.fdiv a b = F32.zero s) ∧
      (F32.val a ≠ 0 → F32.RoundsTo (F32.val a / F32.val b) (F32.fdiv a b)))

/-- R98: `frem` for the divisors the block uses: exact with a truncated quotient for every finite dividend, a zero with
the dividend's sign; the canonical NaN for a NaN or an infinity. -/
def Obligations.RemainderIsExact : Prop :=
  ∀ a n : F32, F32.isFinite n = true → 1 ≤ F32.val n →
    (F32.isFinite a = false → F32.frem a n = F32.cnan) ∧
    (F32.isFinite a = true →
      F32.isFinite (F32.frem a n) = true ∧
      F32.val (F32.frem a n) = F32.val a - truncQ (F32.val a / F32.val n) * F32.val n ∧
      |F32.val (F32.frem a n)| < F32.val n ∧
      F32.sign (F32.frem a n) = F32.sign a)

/-- R99: the conversion of an integer up to `2^24` is exact, and the block converts no larger one. -/
def Obligations.IntegerConversionIsExact : Prop :=
  (∀ k : Nat, k ≤ 2 ^ 24 →
    F32.isFinite (F32.u2f k) = true ∧ F32.sign (F32.u2f k) = false ∧ F32.val (F32.u2f k) = k) ∧
  (∀ (c : Config) (p : F32), c.n ≤ 2 ^ 24 ∧ c.sampleRate ≤ 2 ^ 24 ∧ lowIndex Numerics.ieee c p ≤ c.n - 1) ∧
  F32.u2f 0 = 0x00000000#32 ∧ F32.u2f 1 = 0x3F800000#32 ∧ F32.u2f 3 = 0x40400000#32 ∧ F32.u2f 63 = 0x427C0000#32 ∧
  F32.u2f 64 = 0x42800000#32 ∧ F32.u2f 44100 = 0x472C4400#32 ∧ F32.u2f 48000 = 0x473B8000#32 ∧
  F32.u2f 16777216 = 0x4B800000#32

/-- R100: the conversion to an index: 0 for NaN and for the sign bit, `N - 1` for `+Inf`, `min(floor, N - 1)`. -/
def Obligations.IndexConversionSaturates : Prop :=
  ∀ (n : Nat) (p : F32), 0 < n →
    (F32.isNaN p = true → F32.f2idx n p = 0) ∧
    (F32.sign p = true → F32.f2idx n p = 0) ∧
    (F32.sign p = false → F32.isInf p = true → F32.f2idx n p = n - 1) ∧
    (F32.sign p = false → F32.isFinite p = true → (F32.f2idx n p : ℤ) = min ⌊F32.val p⌋ (n - 1))

/-- R101: `pred` of a positive normal value is the pattern minus one and the largest value below it. -/
def Obligations.PredecessorIsTheNeighbourBelow : Prop :=
  ∀ b : F32, F32.sign b = false → F32.isNormal b = true →
    (F32.pred b).toNat = b.toNat - 1 ∧ F32.isFinite (F32.pred b) = true ∧ F32.val (F32.pred b) < F32.val b ∧
    ∀ x : F32, F32.isFinite x = true → F32.val x < F32.val b → F32.val x ≤ F32.val (F32.pred b)

/-- R102: the comparisons and tests. -/
def Obligations.ComparisonRule : Prop :=
  ∀ a b : F32,
    (F32.isNaN a = true ↔ (a.extractLsb' 23 8).toNat = 255 ∧ (a.extractLsb' 0 23).toNat ≠ 0) ∧
    (F32.isZero a = true ↔ a = 0x00000000#32 ∨ a = 0x80000000#32) ∧
    (F32.isNaN a = true ∨ F32.isNaN b = true → F32.flt a b = false ∧ F32.feq a b = false) ∧
    (F32.isFinite a = true → F32.isFinite b = true → F32.flt a b = decide (F32.val a < F32.val b)) ∧
    (F32.isFinite a = true → F32.flt a 0x7F800000#32 = true ∧ F32.flt 0x7F800000#32 a = false ∧
      F32.flt 0xFF800000#32 a = true ∧ F32.flt a 0xFF800000#32 = false) ∧
    F32.flt 0xFF800000#32 0x7F800000#32 = true ∧ F32.flt 0x7F800000#32 0xFF800000#32 = false ∧
    F32.flt 0xFF800000#32 0xFF800000#32 = false ∧ F32.flt 0x7F800000#32 0x7F800000#32 = false ∧
    (F32.isNaN a = false → F32.isNaN b = false →
      (F32.feq a b = true ↔ (F32.isZero a = true ∧ F32.isZero b = true) ∨ a = b))

/-- R93: every operation with a NaN operand returns the canonical NaN, and no operation returns another NaN. In this second
clause the remainder is by `N_f`, the only divisor the block uses. -/
def Obligations.OnlyTheCanonicalNaN : Prop :=
  ∀ (c : Config) (a b : F32),
    (F32.isNaN a = true ∨ F32.isNaN b = true → F32.fadd a b = F32.cnan ∧ F32.fsub a b = F32.cnan ∧
      F32.fmul a b = F32.cnan ∧ F32.fdiv a b = F32.cnan ∧ F32.frem a b = F32.cnan) ∧
    (F32.isNaN a = true → F32.pred a = F32.cnan ∧ Numerics.ieee.wrap c.nf a = F32.cnan) ∧
    NaNCanonical (F32.fadd a b) ∧ NaNCanonical (F32.fsub a b) ∧ NaNCanonical (F32.fmul a b) ∧
    NaNCanonical (F32.fdiv a b) ∧ NaNCanonical (F32.frem a c.nf) ∧ NaNCanonical (Numerics.ieee.wrap c.nf a)

/-- R103: `wrap` for every sum: the canonical NaN exactly for a NaN or an infinity; otherwise a pattern of `[0, N)`: the
exact remainder, `+0.0` for a zero remainder, and for a negative remainder `r` the rounding of `r + N`, or `PRED_N`
where that rounds to `N`. -/
def Obligations.WrapBringsSumsIntoTheTable : Prop :=
  ∀ (c : Config) (s : F32),
    (Numerics.ieee.wrap c.nf s = F32.cnan ↔ F32.isFinite s = false) ∧
    (F32.isFinite s = true →
      PhaseInRange c (Numerics.ieee.wrap c.nf s) ∧
      let r : ℚ := F32.val s - truncQ (F32.val s / c.n) * c.n
      (r = 0 → Numerics.ieee.wrap c.nf s = 0x00000000#32) ∧
      (0 < r → F32.val (Numerics.ieee.wrap c.nf s) = r) ∧
      (r < 0 → ∃ t : F32, F32.RoundsTo (r + c.n) t ∧
        Numerics.ieee.wrap c.nf s = if t = c.nf then c.predN else t))

/-- The identities of R107 (e) on finite values: one times `t`, zero times `t`, `t` plus a zero. -/
def Obligations.ZeroAndOneIdentities : Prop :=
  ∀ t : F32, F32.isFinite t = true →
    F32.fmul F32.one t = t ∧ F32.fmul F32.pzero t = F32.zero (F32.sign t) ∧
    (F32.isZero t = false → ∀ z : F32, F32.isZero z = true → F32.fadd t z = t)

/-! ### Parameters and the table -/

/-- R8: `N_f` and `SR_f` are exact, `PRED_N` is the largest value below `N`, `IDXW` is the least width of at least 1 that
holds every index, one channel; and their values at the defaults. -/
def Obligations.DerivedConstants : Prop :=
  (∀ c : Config,
    F32.val c.nf = c.n ∧ F32.val c.srf = c.sampleRate ∧ F32.isFinite c.predN = true ∧ F32.val c.predN < c.n ∧
    (∀ x : F32, F32.isFinite x = true → F32.val x < c.n → F32.val x ≤ F32.val c.predN) ∧
    1 ≤ c.idxw ∧ c.n ≤ 2 ^ c.idxw ∧ (∀ k : Nat, 1 ≤ k → c.n ≤ 2 ^ k → c.idxw ≤ k) ∧ c.channels = 1) ∧
  Config.default.nf = 0x42800000#32 ∧ Config.default.srf = 0x472C4400#32 ∧ Config.default.predN = 0x427FFFFF#32 ∧
  Config.default.idxw = 6

/-- Elaboration (R9): a legal parameter set has its configuration and no other, an illegal one none, and each error is
named exactly for the sets it is about. The order of the checks, by which a set wrong in two ways gets one name, and the
error for a list of the wrong length are the model's choice (log 6). -/
def Obligations.ElaborationRefusesIllegalParameters : Prop :=
  ∀ (n sr : Nat) (t : List F32),
    ((∃ c : Config, Config.elaborate n sr t = .ok c ∧ c.n = n ∧ c.sampleRate = sr ∧ c.table = t) ↔
      (1 ≤ n ∧ n ≤ 2 ^ 24) ∧ (1 ≤ sr ∧ sr ≤ 2 ^ 24) ∧ t.length = n ∧ ∀ b ∈ t, entryLegal b = true) ∧
    (∀ c : Config, Config.elaborate n sr t = .ok c → c.n = n ∧ c.sampleRate = sr ∧ c.table = t) ∧
    (Config.elaborate n sr t = .error .nOutOfRange ↔ ¬(1 ≤ n ∧ n ≤ 2 ^ 24)) ∧
    (Config.elaborate n sr t = .error .sampleRateOutOfRange ↔
      (1 ≤ n ∧ n ≤ 2 ^ 24) ∧ ¬(1 ≤ sr ∧ sr ≤ 2 ^ 24)) ∧
    (Config.elaborate n sr t = .error .tableLength ↔
      (1 ≤ n ∧ n ≤ 2 ^ 24) ∧ (1 ≤ sr ∧ sr ≤ 2 ^ 24) ∧ t.length ≠ n) ∧
    (∀ i : Nat, Config.elaborate n sr t = .error (.tableEntry i) ↔
      (1 ≤ n ∧ n ≤ 2 ^ 24) ∧ (1 ≤ sr ∧ sr ≤ 2 ^ 24) ∧ t.length = n ∧
      (∃ b : F32, t[i]? = some b ∧ entryLegal b = false) ∧
      ∀ j : Nat, j < i → ∀ b : F32, t[j]? = some b → entryLegal b = true)

/-- The constraint of R7 on an entry, checked on its pattern: finite, with a value in `[-1, 1]`. -/
def Obligations.LegalEntriesLieInUnitRange : Prop :=
  ∀ b : F32, entryLegal b = true ↔ F32.isFinite b = true ∧ -1 ≤ F32.val b ∧ F32.val b ≤ 1

/-- R45: the properties of the default table at `N = 64` and the other default tables. -/
def Obligations.DefaultTableProperties : Prop :=
  let T := fun i : Nat => romRead Config.default i
  T 0 = 0#32 ∧ T 32 = 0#32 ∧ T 16 = 0x3F800000#32 ∧ T 48 = 0xBF800000#32 ∧
  (∀ i : Nat, i ≤ 32 → T (32 - i) = T i) ∧
  (∀ i : Nat, 1 ≤ i → i ≤ 31 → T (32 + i) = T i ^^^ 0x80000000#32) ∧
  (∀ i : Nat, i < 64 → T i ≠ 0x80000000#32 ∧ F32.isSubnormal (T i) = false ∧ F32.isFinite (T i) = true ∧
    (F32.isZero (T i) = false → 0x3DC8BD36 ≤ ((T i).extractLsb' 0 31).toNat)) ∧
  sineTable 1 = [0#32] ∧ sineTable 2 = [0#32, 0#32] ∧ sineTable 3 = [0#32, 0x3F5DB3D7#32, 0xBF5DB3D7#32] ∧
  sineTable 4 = [0#32, 0x3F800000#32, 0#32, 0xBF800000#32] ∧
  sineTable 8 = [0#32, 0x3F3504F3#32, 0x3F800000#32, 0x3F3504F3#32, 0#32, 0xBF3504F3#32, 0xBF800000#32, 0xBF3504F3#32]

/-- The table computed from the real formula (R43, the model's way of evaluating it: log 9) is at `N = 64` the one the
spec lists (R44). -/
def Obligations.ComputedSineTableIsTheListedOne : Prop :=
  sineTable 64 = Config.default.table ∧ Config.default.n = 64 ∧ Config.default.sampleRate = 44100

/-- R43 at the default `N = 64`: every entry is the real sine correctly rounded (no finite pattern is nearer), and
`+0.0` where the real sine is zero. -/
def Obligations.DefaultTableIsTheRoundedSine : Prop :=
  ∀ i : Nat, i < 64 →
    (2 * i % 64 = 0 → romRead Config.default i = 0x00000000#32) ∧
    ∀ b : F32, F32.isFinite b = true →
      |((F32.val (romRead Config.default i) : ℚ) : ℝ) - Real.sin (2 * Real.pi * i / 64)| ≤
        |((F32.val b : ℚ) : ℝ) - Real.sin (2 * Real.pi * i / 64)|

/-- R76: what the operand of a written SETF denotes: a pattern itself; a decimal number correctly rounded, with `-0.0`
as `0x80000000`; the infinities and the canonical NaN; and the rule's examples. -/
def Obligations.LiteralsDenotePatterns : Prop :=
  (∀ b : F32, (Literal.pattern b).enc = b) ∧
  (∀ (neg : Bool) (digits : Nat) (exp10 : Int),
    F32.RoundsTo ((-1) ^ neg.toNat * (digits : ℚ) * (10 : ℚ) ^ exp10) (Literal.decimal neg digits exp10).enc) ∧
  (∀ exp10 : Int, (Literal.decimal true 0 exp10).enc = 0x80000000#32 ∧
    (Literal.decimal false 0 exp10).enc = 0x00000000#32) ∧
  Literal.posInf.enc = 0x7F800000#32 ∧ Literal.negInf.enc = 0xFF800000#32 ∧ Literal.nan.enc = 0x7FC00000#32 ∧
  Line.idle.expand = [⟨false, 0x000000000#34⟩] ∧ Line.next.expand = [⟨false, 0x200000000#34⟩] ∧
  (Line.setf (.decimal false 300 (-1))).expand = [⟨false, 0x341F00000#34⟩] ∧
  (Line.setf (.decimal false 4400 (-1))).expand = [⟨false, 0x343DC0000#34⟩] ∧
  (Line.setf (.decimal false 6890625 (-4))).expand = [⟨false, 0x3442C4400#34⟩] ∧
  (Line.setf (.decimal false 34453125 (-5))).expand = [⟨false, 0x343AC4400#34⟩] ∧
  (Line.setf (.decimal true 34453125 (-5))).expand = [⟨false, 0x3C3AC4400#34⟩] ∧
  (Line.setf (.decimal false 0 (-1))).expand = [⟨false, 0x300000000#34⟩] ∧
  (Line.setf .posInf).expand = [⟨false, 0x37F800000#34⟩]

/-! ### The pins -/

/-- The pins' view refines the architecture: for whatever a consumer drives, and whatever the latencies, the registers
are those of the commands and reset events that the consumer counts from `rst`, its own words, `cmd_ready` and
`sample_valid`, and the sample stream is what it heard on `sample_data` in the cycles with `sample_valid = 1`. That a
reset event in the strobe cycle of a NEXT abandons it is the model's reading (log 11); the latencies are free (log 5). -/
def Obligations.PinsRunRefinesTheArchitecture : Prop :=
  ∀ (s : State) (tick : Nat) (ps : List Pins),
    let r := Clocked.run ⟨s, .ready, tick⟩ ⟨[], none⟩ [] ps
    r.1.regs = s.play (r.1.steps r.2.1) ∧ r.1.regs.stream = s.stream ++ r.2.2

/-- A word presented while `cmd_ready` is 0 is neither executed nor remembered (R209, R29), and acceptance needs
`rst = 0`, `cmd_valid = 1` and `cmd_ready = 1`. -/
def Obligations.UnacceptedWordsAreForgotten : Prop :=
  ∀ (c : Clocked) (w v : CmdWord),
    ((c.outputs ⟨false, w⟩).cmdReady = false → c.edge ⟨false, w⟩ = c.edge ⟨false, v⟩) ∧
    (∀ p : Pins, c.accepts p = true ↔
      p.rst = false ∧ p.word.getLsbD 33 = true ∧ (c.outputs p).cmdReady = true)

/-- While `rst = 1` both strobes are 0; a reset event abandons a command in execution with none of its writes and no
sample, and `cmd_ready` is 0 in the cycle after it (R183, R200). That this includes a NEXT in its strobe cycle, whose
sample is then not in the stream, is the model's reading (DEDUCED, log 11). -/
def Obligations.ResetAbandonsTheCommand : Prop :=
  ∀ (c : Clocked) (w : CmdWord) (p : Pins),
    (c.outputs ⟨true, w⟩).cmdReady = false ∧ (c.outputs ⟨true, w⟩).sampleValid = false ∧
    (c.edge ⟨true, w⟩).regs = { c.regs with phase := 0#32, pinc := 0#32, sample := 0#32 } ∧
    ((c.edge ⟨true, w⟩).outputs p).cmdReady = false ∧ ((c.edge ⟨true, w⟩).outputs p).sampleValid = false ∧
    ((c.edge ⟨true, w⟩).outputs p).sampleData = 0x00000000#32

/-- The liveness that R212 grants: from every cycle, with `rst = 0`, `cmd_ready` is 1 after finitely many cycles,
whatever else is presented until then. -/
def Obligations.ReadyReturnsInFiniteTime : Prop :=
  ∀ c : Clocked, ∃ bound : Nat, ∀ ws : List CmdWord, ws.length = bound →
    ∃ k : Nat, k ≤ bound ∧
      ((ws.take k).foldl (fun d w => Clocked.edge d ⟨false, w⟩) c).free = true
end

