-- ==== Sys2Proof/Laws/Binary32.lean ====
section
/-!
SUPPORT. The binary32 format: fields of an assembled pattern, the bounds of the units of a finite pattern, its value,
and what rounding can answer.
-/

namespace Sys2Proof.F32

theorem toNat_eq_fields (b : F32) :
    b.toNat = (sign b).toNat * 2 ^ 31 + expo b * 2 ^ 23 + frac b := by
  have h := b.isLt
  have hs : (sign b).toNat = b.toNat / 2 ^ 31 := by
    rw [sign, BitVec.getLsbD, Nat.testBit_eq_decide_div_mod_eq]
    have : b.toNat / 2 ^ 31 < 2 := by omega
    have h2 : b.toNat / 2 ^ 31 % 2 = b.toNat / 2 ^ 31 := Nat.mod_eq_of_lt this
    rw [h2]
    generalize b.toNat / 2 ^ 31 = q at *
    interval_cases q <;> rfl
  simp only [expo, frac, BitVec.extractLsb'_toNat, Nat.shiftRight_eq_div_pow, hs]
  omega

theorem expo_lt (b : F32) : expo b < 256 := (b.extractLsb' 23 8).isLt
theorem frac_lt (b : F32) : frac b < 2 ^ 23 := (b.extractLsb' 0 23).isLt

/-- A pattern is its three fields. -/
theorem eq_of_fields {a b : F32} (hs : sign a = sign b) (he : expo a = expo b) (hf : frac a = frac b) : a = b := by
  apply BitVec.eq_of_toNat_eq
  rw [toNat_eq_fields a, toNat_eq_fields b, hs, he, hf]

theorem toNat_pack (s : Bool) (e f : Nat) :
    (pack s e f).toNat = s.toNat * 2 ^ 31 + e % 256 * 2 ^ 23 + f % 2 ^ 23 := by
  have hf : f % 2 ^ 23 < 2 ^ 23 := Nat.mod_lt _ (by norm_num)
  have he : e % 256 < 256 := Nat.mod_lt _ (by norm_num)
  have h2 : (BitVec.ofNat 8 e ++ BitVec.ofNat 23 f).toNat = e % 256 * 2 ^ 23 + f % 2 ^ 23 := by
    rw [BitVec.toNat_append, BitVec.toNat_ofNat, BitVec.toNat_ofNat,
      ← Nat.shiftLeft_add_eq_or_of_lt hf, Nat.shiftLeft_eq]
  have hlt : e % 256 * 2 ^ 23 + f % 2 ^ 23 < 2 ^ 31 := by omega
  unfold pack
  rw [BitVec.toNat_append, h2, BitVec.toNat_ofBool, ← Nat.shiftLeft_add_eq_or_of_lt hlt, Nat.shiftLeft_eq]
  omega

theorem fields_pack (s : Bool) (e f : Nat) :
    sign (pack s e f) = s ∧ expo (pack s e f) = e % 256 ∧ frac (pack s e f) = f % 2 ^ 23 := by
  have h1 := toNat_eq_fields (pack s e f)
  rw [toNat_pack] at h1
  have he := expo_lt (pack s e f)
  have hf := frac_lt (pack s e f)
  have hf' : f % 2 ^ 23 < 2 ^ 23 := Nat.mod_lt _ (by norm_num)
  have he' : e % 256 < 256 := Nat.mod_lt _ (by norm_num)
  cases s <;> cases hs : sign (pack _ e f) <;> rw [hs] at h1 <;>
    simp only [Bool.toNat_true, Bool.toNat_false] at h1 <;> refine ⟨?_, ?_, ?_⟩ <;> first | rfl | omega

@[simp] theorem sign_pack (s : Bool) (e f : Nat) : sign (pack s e f) = s := (fields_pack s e f).1
@[simp] theorem expo_pack (s : Bool) (e f : Nat) : expo (pack s e f) = e % 256 := (fields_pack s e f).2.1
@[simp] theorem frac_pack (s : Bool) (e f : Nat) : frac (pack s e f) = f % 2 ^ 23 := (fields_pack s e f).2.2

theorem pack_fields (b : F32) : pack (sign b) (expo b) (frac b) = b := by
  apply eq_of_fields
  · exact sign_pack ..
  · rw [expo_pack, Nat.mod_eq_of_lt (expo_lt b)]
  · rw [frac_pack, Nat.mod_eq_of_lt (frac_lt b)]

/-- A zero is a pattern with both fields zero (40_numerics.md R91). -/
theorem isZero_iff (b : F32) : isZero b = true ↔ expo b = 0 ∧ frac b = 0 := by
  have h1 := toNat_eq_fields b
  have he := expo_lt b
  have hf := frac_lt b
  have hz : isZero b = true ↔ b.toNat % 2 ^ 31 = 0 := by
    unfold isZero
    rw [beq_iff_eq, ← BitVec.toNat_inj, BitVec.extractLsb'_toNat]
    simp
  rw [hz, h1]
  cases sign b <;> simp only [Bool.toNat_true, Bool.toNat_false] <;> omega

/-- A finite pattern is below `2^277` units: at most `(2^24 - 1) * 2^253` (40_numerics.md R91). -/
theorem units_le (b : F32) (h : isFinite b = true) : units b ≤ (2 ^ 24 - 1) * 2 ^ 253 := by
  have he : expo b ≤ 254 := by
    have := expo_lt b
    have h' : expo b ≠ 255 := by simpa [isFinite] using h
    omega
  have hf := frac_lt b
  unfold units
  split
  · omega
  · exact Nat.mul_le_mul (by omega) (Nat.pow_le_pow_right (by norm_num) (by omega))

theorem units_eq_zero_iff (b : F32) : units b = 0 ↔ isZero b = true := by
  rw [isZero_iff]
  unfold units
  split
  · next h => simp [h]
  · next h =>
    have : 0 < (2 ^ 23 + frac b) * 2 ^ (expo b - 1) := by positivity
    omega

@[simp] theorem units_zero (s : Bool) : units (zero s) = 0 := by
  rw [units_eq_zero_iff, isZero_iff]; simp [zero]

/-- The value of 40_numerics.md R91 is the number of units. -/
theorem val_eq_signedUnits (b : F32) (h : isFinite b = true) :
    val b = (signedUnits b : ℚ) * (2 : ℚ) ^ (-149 : ℤ) := by
  have h' : expo b ≠ 255 := by simpa [isFinite] using h
  have hu : (units b : ℚ) * (2 : ℚ) ^ (-149 : ℤ) =
      if expo b = 0 then (frac b : ℚ) * (2 : ℚ) ^ (-149 : ℤ)
      else ((2 ^ 23 + frac b : ℕ) : ℚ) * (2 : ℚ) ^ ((expo b : ℤ) - 150) := by
    unfold units
    split
    · rfl
    · next he =>
      have : ((expo b : ℤ) - 150) = ((expo b - 1 : ℕ) : ℤ) + (-149) := by omega
      rw [this, zpow_add₀ (by norm_num), zpow_natCast]
      push_cast
      ring
  have hs : (signedUnits b : ℚ) = (-1) ^ (sign b).toNat * (units b : ℚ) := by
    unfold signedUnits
    cases sign b <;> simp
  rw [hs, mul_assoc, hu, val, if_neg h']
  split <;> ring

/-- The magnitude bits order the patterns of finite values as their units (40_numerics.md R91). -/
theorem units_eq_of_fields (b : F32) :
    units b = if expo b = 0 then frac b else (2 ^ 23 + frac b) * 2 ^ (expo b - 1) := rfl

/-- What the choice of the nearest integer says: at most half away, and even where exactly half away
(40_numerics.md R92). -/
theorem nearestEven_spec (num den : Nat) (hd : 0 < den) :
    2 * (nearestEven num den * den) ≤ 2 * num + den ∧ 2 * num ≤ 2 * (nearestEven num den * den) + den ∧
    ((2 * num = 2 * (nearestEven num den * den) + den ∨ 2 * num + den = 2 * (nearestEven num den * den)) →
      nearestEven num den % 2 = 0) := by
  have hdm := Nat.div_add_mod num den
  have hlt := Nat.mod_lt num hd
  unfold nearestEven
  simp only
  generalize num / den = k at *
  generalize num % den = r at *
  have hkd : den * k = k * den := Nat.mul_comm ..
  split
  · next h1 => refine ⟨by omega, by omega, by omega⟩
  · next h1 =>
    split
    · next h2 =>
      have : (k + 1) * den = k * den + den := by ring
      refine ⟨by omega, by omega, by omega⟩
    · next h2 =>
      rcases Nat.mod_two_eq_zero_or_one k with hk | hk
      · rw [hk, Nat.add_zero]; refine ⟨by omega, by omega, by omega⟩
      · rw [hk]
        have : (k + 1) * den = k * den + den := by ring
        refine ⟨by omega, by omega, by omega⟩

/-- A number that the divisor divides is its own nearest quotient. -/
theorem nearestEven_mul (k den : Nat) (hd : 0 < den) : nearestEven (k * den) den = k := by
  unfold nearestEven
  simp [Nat.mul_div_cancel _ hd, hd]

/-- What assembling a significand can answer, said once (40_numerics.md R92). -/
theorem assemble_cases (s : Bool) (m t : Nat) (hm : m ≤ 2 ^ 24) :
    (assemble s m t = inf s ∧ (253 < t ∨ m = 2 ^ 24 ∧ t = 253)) ∨
    (t ≤ 253 ∧ m < 2 ^ 23 ∧ assemble s m t = pack s 0 m) ∨
    (t ≤ 253 ∧ 2 ^ 23 ≤ m ∧ m < 2 ^ 24 ∧ assemble s m t = pack s (t + 1) (m - 2 ^ 23)) ∨
    (t < 253 ∧ m = 2 ^ 24 ∧ assemble s m t = pack s (t + 2) 0) := by
  by_cases hc : m = 2 ^ 24
  · simp only [assemble, if_pos hc]
    by_cases h1 : 253 < t + 1
    · rw [if_pos h1]; exact .inl ⟨rfl, by omega⟩
    · rw [if_neg h1, if_neg (by omega)]; exact .inr (.inr (.inr ⟨by omega, hc, by simp⟩))
  · simp only [assemble, if_neg hc]
    by_cases h1 : 253 < t
    · rw [if_pos h1]; exact .inl ⟨rfl, .inl h1⟩
    · rw [if_neg h1]
      by_cases h2 : m < 2 ^ 23
      · rw [if_pos h2]; exact .inr (.inl ⟨by omega, h2, rfl⟩)
      · rw [if_neg h2]; exact .inr (.inr (.inl ⟨by omega, by omega, by omega, rfl⟩))

theorem assemble_subnormal (s : Bool) {m t : Nat} (hm : m < 2 ^ 23) (ht : t ≤ 253) :
    assemble s m t = pack s 0 m := by
  rcases assemble_cases s m t (by omega) with ⟨-, h⟩ | ⟨-, -, h⟩ | ⟨-, h, -, -⟩ | ⟨-, h, -⟩
  · omega
  · exact h
  · omega
  · omega

theorem assemble_normal (s : Bool) {m t : Nat} (h1 : 2 ^ 23 ≤ m) (h2 : m < 2 ^ 24) (ht : t ≤ 253) :
    assemble s m t = pack s (t + 1) (m - 2 ^ 23) := by
  rcases assemble_cases s m t (by omega) with ⟨-, h⟩ | ⟨-, h, -⟩ | ⟨-, -, -, h⟩ | ⟨-, h, -⟩
  · omega
  · omega
  · exact h
  · omega

/-- Rounding answers the sign it is given: that of the value, or of the zero. -/
theorem sign_round32 (x : Exact) (s0 : Bool) :
    sign (round32 x s0) = if x.num = 0 then s0 else x.neg := by
  unfold round32
  split
  · simp [zero]
  · simp only [assemble]
    generalize nearestEven x.num (x.den * 2 ^ binade x.num x.den) = m
    generalize binade x.num x.den = t
    split_ifs <;> simp [inf]

/-- A value that has a pattern is returned unchanged (40_numerics.md R92). -/
theorem round32_units (b : F32) (s0 : Bool) (h : isFinite b = true) (hz : isZero b = false) :
    round32 ⟨sign b, units b, 1⟩ s0 = b := by
  have he : expo b ≤ 254 := by
    have := expo_lt b
    have h' : expo b ≠ 255 := by simpa [isFinite] using h
    omega
  have hf := frac_lt b
  have hu : units b ≠ 0 := by
    intro h0; rw [units_eq_zero_iff] at h0; rw [h0] at hz; cases hz
  unfold round32
  simp only [if_neg hu]
  by_cases he0 : expo b = 0
  · have hub : units b = frac b := by unfold units; rw [if_pos he0]
    have hb : binade (units b) 1 = 0 := by
      unfold binade
      rw [Nat.div_one, hub]
      have : Nat.log2 (frac b) < 23 := (Nat.log2_lt (by omega)).2 hf
      omega
    rw [hb, Nat.pow_zero, Nat.one_mul]
    have : nearestEven (units b) 1 = units b := by
      simpa using nearestEven_mul (units b) 1 (by norm_num)
    rw [this, hub, assemble_subnormal _ hf (by omega)]
    conv_rhs => rw [← pack_fields b, he0]
  · have hub : units b = (2 ^ 23 + frac b) * 2 ^ (expo b - 1) := by unfold units; rw [if_neg he0]
    have hb : binade (units b) 1 = expo b - 1 := by
      unfold binade
      rw [Nat.div_one]
      have : Nat.log2 (units b) = 23 + (expo b - 1) := by
        rw [Nat.log2_eq_iff hu, hub]
        constructor
        · rw [pow_add]; exact Nat.mul_le_mul_right _ (by omega)
        · rw [show 23 + (expo b - 1) + 1 = 24 + (expo b - 1) by omega, pow_add]
          exact Nat.mul_lt_mul_of_pos_right (by omega) (by positivity)
      omega
    rw [hb, Nat.one_mul, hub, nearestEven_mul _ _ (by positivity)]
    rw [assemble_normal _ (by omega) (by omega) (by omega), Nat.sub_add_cancel (by omega), Nat.add_sub_cancel_left,
      pack_fields]

end Sys2Proof.F32
end

