-- ==== Sys2Proof/Laws/State.lean ====
section
/-!
SUPPORT. One lemma per field per update of the state, so that no later proof unfolds a record update.
-/

namespace Sys2Proof.Machine.State

variable (s : State) (v : F32)

@[simp] theorem writePhase_inst : (s.writePhase v).inst = s.inst := rfl
@[simp] theorem writePhase_phase : (s.writePhase v).phase = v := rfl
@[simp] theorem writePhase_pinc : (s.writePhase v).pinc = s.pinc := rfl
@[simp] theorem writePhase_sample : (s.writePhase v).sample = s.sample := rfl
@[simp] theorem writePhase_inputs : (s.writePhase v).inputs = s.inputs := rfl
@[simp] theorem writePhase_stream : (s.writePhase v).stream = s.stream := rfl

@[simp] theorem writePinc_inst : (s.writePinc v).inst = s.inst := rfl
@[simp] theorem writePinc_phase : (s.writePinc v).phase = s.phase := rfl
@[simp] theorem writePinc_pinc : (s.writePinc v).pinc = v := rfl
@[simp] theorem writePinc_sample : (s.writePinc v).sample = s.sample := rfl
@[simp] theorem writePinc_inputs : (s.writePinc v).inputs = s.inputs := rfl
@[simp] theorem writePinc_stream : (s.writePinc v).stream = s.stream := rfl

@[simp] theorem writeSample_inst : (s.writeSample v).inst = s.inst := rfl
@[simp] theorem writeSample_phase : (s.writeSample v).phase = s.phase := rfl
@[simp] theorem writeSample_pinc : (s.writeSample v).pinc = s.pinc := rfl
@[simp] theorem writeSample_sample : (s.writeSample v).sample = v := rfl
@[simp] theorem writeSample_inputs : (s.writeSample v).inputs = s.inputs := rfl
@[simp] theorem writeSample_stream : (s.writeSample v).stream = s.stream := rfl

@[simp] theorem emit_inst : (s.emit v).inst = s.inst := rfl
@[simp] theorem emit_phase : (s.emit v).phase = s.phase := rfl
@[simp] theorem emit_pinc : (s.emit v).pinc = s.pinc := rfl
@[simp] theorem emit_sample : (s.emit v).sample = s.sample := rfl
@[simp] theorem emit_inputs : (s.emit v).inputs = s.inputs := rfl
@[simp] theorem emit_stream : (s.emit v).stream = s.stream ++ [v] := rfl

@[simp] theorem resetEvent_inst : s.resetEvent.inst = s.inst := rfl
@[simp] theorem resetEvent_phase : s.resetEvent.phase = 0x00000000#32 := rfl
@[simp] theorem resetEvent_pinc : s.resetEvent.pinc = 0x00000000#32 := rfl
@[simp] theorem resetEvent_sample : s.resetEvent.sample = 0x00000000#32 := rfl
@[simp] theorem resetEvent_inputs : s.resetEvent.inputs = s.inputs := rfl
@[simp] theorem resetEvent_stream : s.resetEvent.stream = s.stream := rfl

@[simp] theorem presentNumber_inputs (nbits w : Nat) : (s.presentNumber nbits w).inputs =
    Pins.present (BitVec.ofNat 34 (w % 2 ^ nbits)) :: s.inputs := rfl
@[simp] theorem presentNumber_inst (nbits w : Nat) : (s.presentNumber nbits w).inst = s.inst := rfl
@[simp] theorem presentNumber_phase (nbits w : Nat) : (s.presentNumber nbits w).phase = s.phase := rfl
@[simp] theorem presentNumber_pinc (nbits w : Nat) : (s.presentNumber nbits w).pinc = s.pinc := rfl
@[simp] theorem presentNumber_sample (nbits w : Nat) : (s.presentNumber nbits w).sample = s.sample := rfl
@[simp] theorem presentNumber_stream (nbits w : Nat) : (s.presentNumber nbits w).stream = s.stream := rfl

theorem fetch_nil (h : s.inputs = []) : s.fetch = (Pins.quiet, s) := by
  unfold fetch; rw [h]

theorem fetch_cons {p : Pins} {rest : List Pins} (h : s.inputs = p :: rest) :
    s.fetch = (p, { s with inputs := rest }) := by
  unfold fetch; rw [h]

/-- Taking an input changes the list of inputs only. -/
theorem fetch_snd : s.fetch.2 = { s with inputs := s.inputs.tail } := by
  cases s with
  | mk c ph pi sa inp str => cases inp <;> rfl

end Sys2Proof.Machine.State
end

