-- ==== Sys2Proof/Laws/Ops.lean ====
section
/-!
SUPPORT. What each shared operation can do, said once: the ROM read, the events of the port, the meanings, one step.
-/

namespace Sys2Proof

@[simp] theorem Numerics.ieee_fadd : Numerics.ieee.fadd = F32.fadd := rfl
@[simp] theorem Numerics.ieee_fsub : Numerics.ieee.fsub = F32.fsub := rfl
@[simp] theorem Numerics.ieee_fmul : Numerics.ieee.fmul = F32.fmul := rfl
@[simp] theorem Numerics.ieee_fdiv : Numerics.ieee.fdiv = F32.fdiv := rfl
@[simp] theorem Numerics.ieee_frem : Numerics.ieee.frem = F32.frem := rfl
@[simp] theorem Numerics.ieee_u2f : Numerics.ieee.u2f = F32.u2f := rfl
@[simp] theorem Numerics.ieee_f2idx : Numerics.ieee.f2idx = F32.f2idx := rfl
@[simp] theorem Numerics.ieee_pred : Numerics.ieee.pred = F32.pred := rfl
@[simp] theorem Numerics.ieee_flt : Numerics.ieee.flt = F32.flt := rfl
@[simp] theorem Numerics.ieee_fisZero : Numerics.ieee.fisZero = F32.isZero := rfl
@[simp] theorem Numerics.ieee_fisNan : Numerics.ieee.fisNan = F32.isNaN := rfl

theorem Config.n_pos (c : Config) : 0 < c.n := c.n_legal.1

/-- The index increment is addition modulo `N` on indices in range (40_numerics.md R104). -/
theorem Config.succIndex_eq_mod (c : Config) {i : Nat} (h : i < c.n) : c.succIndex i = (i + 1) % c.n := by
  unfold Config.succIndex
  split
  · next hi => rw [hi, Nat.sub_add_cancel c.n_legal.1, Nat.mod_self]
  · next hi => rw [Nat.mod_eq_of_lt (by omega)]

theorem Config.succIndex_lt (c : Config) {i : Nat} (h : i < c.n) : c.succIndex i < c.n := by
  rw [c.succIndex_eq_mod h]; exact Nat.mod_lt _ c.n_pos

namespace Machine

/-- An index in range reads the table (20_memory.md R47). -/
theorem romRead_eq_getElem (c : Config) {i : Nat} (h : i < c.n) :
    romRead c i = c.table[i]'(by rw [c.table_length]; exact h) := by
  unfold romRead
  rw [List.getD_eq_getElem?_getD, List.getElem?_eq_getElem (by rw [c.table_length]; exact h)]
  rfl

/-- Every word read at an index in range is a legal entry (00_scope.md R7). -/
theorem romRead_legal (c : Config) {i : Nat} (h : i < c.n) : entryLegal (romRead c i) = true := by
  rw [romRead_eq_getElem c h]
  exact (List.all_eq_true.1 c.table_legal) _ (List.getElem_mem _)

@[simp] theorem exec_idle (s : State) : exec .idle s = .next s := rfl

theorem exec_setf (f : F32) (s : State) :
    exec (.setf f) s = .next (s.writePinc (increment Numerics.ieee s.inst f)) := rfl

theorem exec_next (s : State) :
    exec .next s = .next (((s.writePhase (advance Numerics.ieee s.inst s.phase s.pinc)).writeSample
      (sampleAt Numerics.ieee s.inst s.phase)).emit (sampleAt Numerics.ieee s.inst s.phase)) := rfl

/-- Every command answers the state `State.after` names. -/
theorem exec_eq_after (i : Instr) (s : State) : exec i s = .next (s.after i) := by
  cases i <;> rfl

@[simp] theorem after_idle (s : State) : s.after .idle = s := rfl
@[simp] theorem after_setf (f : F32) (s : State) :
    s.after (.setf f) = s.writePinc (increment Numerics.ieee s.inst f) := rfl
@[simp] theorem after_next (s : State) :
    s.after .next = ((s.writePhase (advance Numerics.ieee s.inst s.phase s.pinc)).writeSample
      (sampleAt Numerics.ieee s.inst s.phase)).emit (sampleAt Numerics.ieee s.inst s.phase) := rfl

@[simp] theorem event_reset (w : CmdWord) : Pins.event ⟨true, w⟩ = .reset := rfl
@[simp] theorem event_command (w : CmdWord) : Pins.event ⟨false, w⟩ = .command (decode w) := rfl
@[simp] theorem event_present (w : CmdWord) : (Pins.present w).event = .command (decode w) := rfl

@[simp] theorem apply_reset (s : State) (w : CmdWord) : s.apply ⟨true, w⟩ = s.resetEvent := rfl

@[simp] theorem apply_command (s : State) (w : CmdWord) : s.apply ⟨false, w⟩ = s.after (decode w) := rfl

@[simp] theorem apply_present (s : State) (w : CmdWord) : s.apply (Pins.present w) = s.after (decode w) := rfl

/-- What one input can do to a state, said once. -/
theorem apply_cases (s : State) (p : Pins) :
    (p.rst = true ∧ s.apply p = s.resetEvent) ∨
    (p.rst = false ∧ decode p.word = .idle ∧ s.apply p = s) ∨
    (p.rst = false ∧ decode p.word = .next ∧ s.apply p = s.after .next) ∨
    (p.rst = false ∧ ∃ f, decode p.word = .setf f ∧ s.apply p = s.after (.setf f)) := by
  obtain ⟨rst, w⟩ := p
  cases rst with
  | true => exact .inl ⟨rfl, rfl⟩
  | false =>
    cases h : decode w with
    | idle => exact .inr (.inl ⟨rfl, rfl, by rw [apply_command, h]; rfl⟩)
    | next => exact .inr (.inr (.inl ⟨rfl, rfl, by rw [apply_command, h]⟩))
    | setf f => exact .inr (.inr (.inr ⟨rfl, f, rfl, by rw [apply_command, h]⟩))

/-- A step is the next input applied to the state without it. -/
theorem step_eq_apply (s : State) : step s = .next (s.fetch.2.apply s.fetch.1) := by
  unfold step State.apply applyEvent
  cases s.fetch.1.event with
  | reset => rfl
  | command i => simp only [exec_eq_after]

@[simp] theorem play_nil (s : State) : s.play [] = s := rfl
@[simp] theorem play_cons (s : State) (p : Pins) (ps : List Pins) : s.play (p :: ps) = (s.apply p).play ps := rfl
@[simp] theorem play_append (s : State) (ps qs : List Pins) : s.play (ps ++ qs) = (s.play ps).play qs :=
  List.foldl_append ..

/-- No input changes the parameters or the ROM, or the list of inputs of a step in progress. -/
theorem apply_inst (s : State) (p : Pins) : (s.apply p).inst = s.inst := by
  rcases apply_cases s p with ⟨-, h⟩ | ⟨-, -, h⟩ | ⟨-, -, h⟩ | ⟨-, f, -, h⟩ <;> rw [h] <;> rfl

theorem apply_inputs (s : State) (p : Pins) : (s.apply p).inputs = s.inputs := by
  rcases apply_cases s p with ⟨-, h⟩ | ⟨-, -, h⟩ | ⟨-, -, h⟩ | ⟨-, f, -, h⟩ <;> rw [h] <;> rfl

end Machine

end Sys2Proof
end

