-- ==== Sys2Proof/Laws/Clock.lean ====
section
/-!
SUPPORT. What one clock edge of the pins' view can do, by what the block is doing.
-/

namespace Sys2Proof.Machine.Clocked

@[simp] theorem situation_mk (s : State) (a : Activity) (t : Nat) : Clocked.situation ⟨s, a, t⟩ = s.situation t := rfl

@[simp] theorem edge_reset (c : Clocked) (w : CmdWord) :
    c.edge ⟨true, w⟩ = ⟨c.regs.resetEvent, .recovering (Config.recovery c.situation), c.tick + 1⟩ := rfl

theorem edge_recovering_zero (s : State) (t : Nat) (w : CmdWord) :
    Clocked.edge ⟨s, .recovering 0, t⟩ ⟨false, w⟩ = ⟨s, .ready, t⟩ := rfl

theorem edge_recovering_succ (s : State) (t k : Nat) (w : CmdWord) :
    Clocked.edge ⟨s, .recovering (k + 1), t⟩ ⟨false, w⟩ = ⟨s, .recovering k, t⟩ := rfl

theorem edge_ready (s : State) (t : Nat) (w : CmdWord) :
    Clocked.edge ⟨s, .ready, t⟩ ⟨false, w⟩ = Clocked.take s t w := rfl

theorem edge_busy_zero (s : State) (t : Nat) (i : Instr) (w : CmdWord) :
    Clocked.edge ⟨s, .busy i 0, t⟩ ⟨false, w⟩ = Clocked.complete i s t := rfl

theorem edge_busy_succ (s : State) (t k : Nat) (i : Instr) (w : CmdWord) :
    Clocked.edge ⟨s, .busy i (k + 1), t⟩ ⟨false, w⟩ = ⟨s, .busy i k, t⟩ := rfl

theorem edge_strobe (s u : State) (t : Nat) (w : CmdWord) :
    Clocked.edge ⟨s, .strobe u, t⟩ ⟨false, w⟩ =
      if Config.readyInStrobe (s.situation t) then Clocked.take u t w else ⟨u, .ready, t⟩ := rfl

/-- A free block either starts the presented command, or completes it at once, or does nothing (10_state.md R29). -/
theorem take_cases (s : State) (t : Nat) (w : CmdWord) :
    (CmdWord.valid w = false ∧ Clocked.take s t w = ⟨s, .ready, t⟩) ∨
    (CmdWord.valid w = true ∧ extraCycles (decode w) (s.situation t) = 0 ∧
      Clocked.take s t w = Clocked.complete (decode w) s (t + 1)) ∨
    (CmdWord.valid w = true ∧ ∃ k, extraCycles (decode w) (s.situation t) = k + 1 ∧
      Clocked.take s t w = ⟨s, .busy (decode w) k, t + 1⟩) := by
  unfold Clocked.take
  cases hv : CmdWord.valid w with
  | false => exact .inl ⟨rfl, rfl⟩
  | true =>
    cases hx : extraCycles (decode w) (s.situation t) with
    | zero => exact .inr (.inl ⟨rfl, rfl, rfl⟩)
    | succ k => exact .inr (.inr ⟨rfl, k, rfl, rfl⟩)

/-- The outputs while `rst = 1`: no strobe (10_state.md R25, R29). -/
theorem outputs_reset (c : Clocked) (w : CmdWord) :
    (c.outputs ⟨true, w⟩).cmdReady = false ∧ (c.outputs ⟨true, w⟩).sampleValid = false := ⟨rfl, rfl⟩

/-- The outputs of a strobe cycle with `rst = 0` (10_state.md R25). -/
theorem outputs_strobe (s u : State) (t : Nat) (w : CmdWord) :
    Clocked.outputs ⟨s, .strobe u, t⟩ ⟨false, w⟩ = ⟨Config.readyInStrobe (s.situation t), true, u.sample⟩ := rfl

end Sys2Proof.Machine.Clocked

namespace Sys2Proof.Machine.Watch

@[simp] theorem see_reset (k : Watch) (w : CmdWord) (o : Outputs) : k.see ⟨true, w⟩ o = ⟨k.done ++ [⟨true, w⟩], none⟩ := rfl

/-- A strobe settles the pending command, whether or not the block is ready in that cycle. -/
theorem settle_strobe (k : Watch) (s u : State) (t : Nat) (w : CmdWord) :
    k.settle (Clocked.outputs ⟨s, .strobe u, t⟩ ⟨false, w⟩) =
      ⟨k.done ++ k.pending.toList.map Pins.present, none⟩ := by
  rw [Clocked.outputs_strobe, settle, Bool.or_true, if_pos rfl]

/-- What the consumer learns at an edge without reset, said once. -/
theorem see_command (k : Watch) (w : CmdWord) (o : Outputs) :
    k.see ⟨false, w⟩ o = if o.cmdReady && CmdWord.valid w then { k.settle o with pending := some w } else k.settle o := rfl

end Sys2Proof.Machine.Watch
end

