-- ==== Sys2Proof/Laws/Memory.lean ====
section
/-!
SUPPORT. The ROM keeps its canonical form: every configuration has it, and every operation on the state keeps the
configuration as it is.
-/

namespace Sys2Proof

/-- The form that the type of configurations carries. -/
theorem Memory.wf_of_config (c : Config) : Memory.wf c = true := by
  unfold Memory.wf; rw [c.table_legal]; simp [c.table_length]

namespace Machine

theorem reset_memory_wf : Memory.wf State.reset.inst = true := Memory.wf_of_config _

/-- Every operation of Machine/Ops.lean leaves the ROM and its form as they are (20_memory.md R48). -/
theorem ops_keep_memory (s : State) (v : F32) (nbits w : Nat) :
    (s.writePhase v).inst = s.inst ∧ (s.writePinc v).inst = s.inst ∧ (s.writeSample v).inst = s.inst ∧
    (s.emit v).inst = s.inst ∧ s.resetEvent.inst = s.inst ∧ s.fetch.2.inst = s.inst ∧
    (s.presentNumber nbits w).inst = s.inst := by
  refine ⟨rfl, rfl, rfl, rfl, rfl, ?_, rfl⟩
  rw [State.fetch_snd]

theorem step_keeps_memory_wf {s t : State} (h : step s = .next t) : Memory.wf t.inst = true ∧ t.inst = s.inst := by
  refine ⟨Memory.wf_of_config _, ?_⟩
  rw [step_eq_apply] at h
  injection h with h
  rw [← h, apply_inst, State.fetch_snd]

end Machine

end Sys2Proof
end

