-- ==== Sys2Proof/Laws/Numerics.lean ====
section
/-!
SUPPORT. What each arithmetic operation can answer, said once, by the class of its operands.
-/

namespace Sys2Proof.F32

theorem isNaN_of_finite {b : F32} (h : isFinite b = true) : isNaN b = false := by
  have h' : expo b ≠ 255 := by simpa [isFinite] using h
  simp [isNaN, h']

theorem isInf_of_finite {b : F32} (h : isFinite b = true) : isInf b = false := by
  have h' : expo b ≠ 255 := by simpa [isFinite] using h
  simp [isInf, h']

/-- A pattern that is not finite is an infinity or a NaN, and not both. -/
theorem inf_or_nan_of_not_finite {b : F32} (h : isFinite b = false) :
    (isInf b = true ∧ isNaN b = false) ∨ (isInf b = false ∧ isNaN b = true) := by
  have h' : expo b = 255 := by simpa [isFinite] using h
  by_cases hf : frac b = 0
  · exact .inl ⟨by simp [isInf, h', hf], by simp [isNaN, hf]⟩
  · exact .inr ⟨by simp [isInf, hf], by simp [isNaN, h', hf]⟩

@[simp] theorem isNaN_cnan : isNaN cnan = true := by decide
@[simp] theorem isInf_cnan : isInf cnan = false := by decide
@[simp] theorem isFinite_cnan : isFinite cnan = false := by decide

theorem fadd_nan {a b : F32} (h : isNaN a = true ∨ isNaN b = true) : fadd a b = cnan := by
  unfold fadd; rcases h with h | h <;> simp [h]

theorem fsub_nan {a b : F32} (h : isNaN a = true ∨ isNaN b = true) : fsub a b = cnan := by
  unfold fsub; rcases h with h | h <;> simp [h]

theorem fmul_nan {a b : F32} (h : isNaN a = true ∨ isNaN b = true) : fmul a b = cnan := by
  unfold fmul; rcases h with h | h <;> simp [h]

theorem fdiv_nan {a b : F32} (h : isNaN a = true ∨ isNaN b = true) : fdiv a b = cnan := by
  unfold fdiv; rcases h with h | h <;> simp [h]

theorem frem_nan {a n : F32} (h : isNaN a = true ∨ isNaN n = true) : frem a n = cnan := by
  unfold frem; rcases h with h | h <;> simp [h]

theorem pred_nan {b : F32} (h : isNaN b = true) : pred b = cnan := by
  unfold pred; simp [h]

theorem frem_of_not_finite {a : F32} (n : F32) (h : isFinite a = false) : frem a n = cnan := by
  unfold frem
  rcases inf_or_nan_of_not_finite h with ⟨h1, -⟩ | ⟨-, h1⟩ <;> simp [h1]

theorem fadd_of_finite {a b : F32} (ha : isFinite a = true) (hb : isFinite b = true) :
    fadd a b = if signedUnits a + signedUnits b = 0 then zero (sign a && sign b)
      else round32 (Exact.ofInt (signedUnits a + signedUnits b)) false := by
  unfold fadd
  simp [isNaN_of_finite ha, isNaN_of_finite hb, isInf_of_finite ha, isInf_of_finite hb]

theorem fmul_of_finite {a b : F32} (ha : isFinite a = true) (hb : isFinite b = true) :
    fmul a b = round32 ⟨xor (sign a) (sign b), units a * units b, 2 ^ 149⟩ (xor (sign a) (sign b)) := by
  unfold fmul
  simp [isNaN_of_finite ha, isNaN_of_finite hb, isInf_of_finite ha, isInf_of_finite hb]

theorem fdiv_of_finite {a b : F32} (ha : isFinite a = true) (hb : isFinite b = true) (h0 : isZero b = false) :
    fdiv a b = round32 ⟨xor (sign a) (sign b), units a * 2 ^ 149, units b⟩ (xor (sign a) (sign b)) := by
  unfold fdiv
  simp [isNaN_of_finite ha, isNaN_of_finite hb, isInf_of_finite ha, isInf_of_finite hb, h0]

theorem frem_of_finite {a n : F32} (ha : isFinite a = true) (hn : isFinite n = true) (h0 : isZero n = false) :
    frem a n = round32 (Exact.ofInt ((signedUnits a).tmod (signedUnits n))) (sign a) := by
  unfold frem
  simp [isNaN_of_finite ha, isInf_of_finite ha, isNaN_of_finite hn, isInf_of_finite hn, h0]

/-- The index is in range for every pattern (40_numerics.md R100, 20_memory.md R51). -/
theorem f2idx_le (n : Nat) (p : F32) : f2idx n p ≤ n - 1 := by
  unfold f2idx; split_ifs <;> omega

end Sys2Proof.F32

namespace Sys2Proof

/-- What the reduction of a phase sum can answer (40_numerics.md R103). -/
theorem Numerics.wrap_cases (nm : Numerics) (nf s : F32) :
    (nm.fisNan (nm.frem s nf) = true ∧ nm.wrap nf s = F32.cnan) ∨
    (nm.fisNan (nm.frem s nf) = false ∧ nm.fisZero (nm.frem s nf) = true ∧ nm.wrap nf s = F32.pzero) ∨
    (nm.fisNan (nm.frem s nf) = false ∧ nm.fisZero (nm.frem s nf) = false ∧ F32.sign (nm.frem s nf) = false ∧
      nm.wrap nf s = nm.frem s nf) ∨
    (nm.fisNan (nm.frem s nf) = false ∧ nm.fisZero (nm.frem s nf) = false ∧ F32.sign (nm.frem s nf) = true ∧
      nm.wrap nf s = if nm.fadd (nm.frem s nf) nf = nf then nm.pred nf else nm.fadd (nm.frem s nf) nf) := by
  unfold Numerics.wrap
  cases h1 : nm.fisNan (nm.frem s nf) <;> cases h2 : nm.fisZero (nm.frem s nf) <;>
    cases h3 : F32.sign (nm.frem s nf) <;> simp [h1, h2, h3]

end Sys2Proof
end

