-- ==== Sys2Proof/Laws/PerInstr.lean ====
section
/-!
SUPPORT. The statements made per command of the block.
-/

/-- The encoder writes canonical words: zeros in the bits the row of the command ignores (30_encoding.md R74, R78). -/
def Sys2Proof.Laws.EncodeCanonical.Statement (i : Sys2Proof.Instr) : Prop :=
  Sys2Proof.canonical (Sys2Proof.encode i) = true

theorem Sys2Proof.Laws.EncodeCanonical.idle : Sys2Proof.Laws.EncodeCanonical.Statement .idle := by
  unfold Sys2Proof.Laws.EncodeCanonical.Statement; decide

theorem Sys2Proof.Laws.EncodeCanonical.next : Sys2Proof.Laws.EncodeCanonical.Statement .next := by
  unfold Sys2Proof.Laws.EncodeCanonical.Statement; decide

/-- The value of an encoded SETF: the two selecting bits above the pattern. -/
theorem Sys2Proof.Laws.encode_setf_toNat (f : Sys2Proof.F32) :
    (Sys2Proof.encode (.setf f)).toNat = 0x300000000 + f.toNat := by
  have := f.isLt
  simp only [Sys2Proof.encode, BitVec.toNat_add, BitVec.toNat_setWidth, BitVec.toNat_ofNat]
  omega

theorem Sys2Proof.Laws.EncodeCanonical.setf (f : Sys2Proof.F32) :
    Sys2Proof.Laws.EncodeCanonical.Statement (.setf f) := by
  have hlt := f.isLt
  have h33 : Sys2Proof.CmdWord.valid (Sys2Proof.encode (.setf f)) = true := by
    rw [Sys2Proof.CmdWord.valid, BitVec.getLsbD, Sys2Proof.Laws.encode_setf_toNat, Nat.testBit_eq_decide_div_mod_eq]
    simp only [decide_eq_true_eq]; omega
  have h32 : Sys2Proof.CmdWord.op (Sys2Proof.encode (.setf f)) = true := by
    rw [Sys2Proof.CmdWord.op, BitVec.getLsbD, Sys2Proof.Laws.encode_setf_toNat, Nat.testBit_eq_decide_div_mod_eq]
    simp only [decide_eq_true_eq]; omega
  unfold Sys2Proof.Laws.EncodeCanonical.Statement Sys2Proof.canonical
  rw [h33, h32]; rfl
end

