-- ==== Sys2Proof/Machine/Reader.lean ====
section
/-!
DEFINITION. The written syntax of command listings (30_encoding.md R76, R77), from characters to `Listing`. The hardware
knows nothing of it. What the two rules do not say of the characters is the model's choice (log 14).
-/

namespace Sys2Proof.Machine

/-- Why a text is no listing. -/
inductive ReadError where
  /-- The line, counted from 1, is none of the forms of R76 and R77. -/
  | unreadable (line : Nat)
  /-- A `.config` line that is not the first line that says something (log 14). -/
  | misplacedConfig
  deriving DecidableEq, Repr

/-- The value of a decimal digit. -/
def decDigit (c : Char) : Option Nat :=
  if 48 ≤ c.toNat ∧ c.toNat ≤ 57 then some (c.toNat - 48) else none

/-- The value of a hexadecimal digit of either case. -/
def hexDigit (c : Char) : Option Nat :=
  if 65 ≤ c.toNat ∧ c.toNat ≤ 70 then some (c.toNat - 55)
  else if 97 ≤ c.toNat ∧ c.toNat ≤ 102 then some (c.toNat - 87)
  else decDigit c

/-- The number written by digits of a base, most significant first, after `acc`. -/
def readDigits (digit : Char → Option Nat) (base : Nat) : (acc : Nat) → List Char → Option Nat
  | acc, [] => some acc
  | acc, c :: cs =>
    match digit c with
    | some d => readDigits digit base (acc * base + d) cs
    | none => none

/-- An unsigned decimal integer: at least one digit. -/
def readNat (cs : List Char) : Option Nat :=
  if cs.isEmpty then none else readDigits decDigit 10 0 cs

/-- `0x` and exactly `count` hexadecimal digits. -/
def readHex (count : Nat) : List Char → Option Nat
  | '0' :: 'x' :: cs => if cs.length = count then readDigits hexDigit 16 0 cs else none
  | _ => none

/-- An optional sign, `true` for minus, and the rest. -/
def readSign : List Char → Bool × List Char
  | '-' :: cs => (true, cs)
  | '+' :: cs => (false, cs)
  | cs => (false, cs)

/-- The digits of a mantissa with an optional fraction, as a whole number and the number of fraction digits. -/
def readMantissa (cs : List Char) : Option (Nat × Nat) :=
  match cs.span (· != '.') with
  | (whole, []) => (readNat whole).map fun m => (m, 0)
  | (whole, _ :: fraction) =>
    match readNat whole, readNat fraction with
    | some _, some _ => (readNat (whole ++ fraction)).map fun m => (m, fraction.length)
    | _, _ => none

/-- An optional exponent: nothing, or `e` or `E` and an integer with an optional sign. -/
def readExponent : List Char → Option Int
  | [] => some 0
  | _ :: cs =>
    let (neg, digits) := readSign cs
    (readNat digits).map fun (k : Nat) => if neg then -(k : Int) else (k : Int)

/-- A decimal number with optional sign, optional fraction and optional exponent (30_encoding.md R76 (b)). -/
def readDecimal (cs : List Char) : Option Literal :=
  let (neg, body) := readSign cs
  let (mantissa, exponent) := body.span (fun c => c != 'e' && c != 'E')
  match readMantissa mantissa, readExponent exponent with
  | some (digits, fraction), some e => some (.decimal neg digits (e - fraction))
  | _, _ => none

/-- A literal (30_encoding.md R76 (a), (b), (c)). -/
def readLiteral (cs : List Char) : Option Literal :=
  if cs = ['+', 'I', 'n', 'f'] then some .posInf
  else if cs = ['-', 'I', 'n', 'f'] then some .negInf
  else if cs = ['N', 'a', 'N'] then some .nan
  else
    match readHex 8 cs with
    | some b => some (.pattern (BitVec.ofNat 32 b))
    | none => readDecimal cs

/-- The rest of a text after a prefix, if it begins so. -/
def afterPrefix : (pre cs : List Char) → Option (List Char)
  | [], cs => some cs
  | p :: pre, c :: cs => if p = c then afterPrefix pre cs else none
  | _ :: _, [] => none

/-- `*k` with `k` positive (30_encoding.md R77). -/
def readTimes (cs : List Char) : Option Nat :=
  match (afterPrefix ['*'] cs).bind readNat with
  | some (k + 1) => some (k + 1)
  | _ => none

/-- The patterns of a list of literals. -/
def readEntries : List (List Char) → Option (List F32)
  | [] => some []
  | e :: rest =>
    match readLiteral e, readEntries rest with
    | some lit, some es => some (lit.enc :: es)
    | _, _ => none

/-- `sine`, or literals separated by commas (log 14). -/
def readTable (cs : List Char) : Option TableSpec :=
  if cs = ['s', 'i', 'n', 'e'] then some .sine
  else (readEntries (cs.splitOnP (· == ','))).map .list

/-- One setting of the `.config` directive, on a listing that holds the ones before it. -/
def readSetting (l : Listing) (cs : List Char) : Option Listing :=
  match afterPrefix ['N', '='] cs with
  | some v => (readNat v).map fun k => { l with n := k }
  | none =>
    match afterPrefix ['S', 'A', 'M', 'P', 'L', 'E', '_', 'R', 'A', 'T', 'E', '='] cs with
    | some v => (readNat v).map fun k => { l with sampleRate := k }
    | none => ((afterPrefix ['T', 'A', 'B', 'L', 'E', '='] cs).bind readTable).map fun t => { l with table := t }

/-- The settings of a `.config` directive, first to last; those not named keep their defaults, and of a setting named
twice the later value stands (DESIGN CHOICE, log 14: R77 does not speak of repeats). -/
def readSettings : Listing → List (List Char) → Option Listing
  | l, [] => some l
  | l, w :: ws =>
    match readSetting l w with
    | some l' => readSettings l' ws
    | none => none

/-- A line of a listing other than `.config`, from its words (30_encoding.md R76, R77). -/
def readCommand : List (List Char) → Option Line
  | [['I', 'D', 'L', 'E']] => some .idle
  | [['N', 'E', 'X', 'T']] => some .next
  | [['R', 'E', 'S', 'E', 'T']] => some .reset
  | [['S', 'E', 'T', 'F'], lit] => (readLiteral lit).map .setf
  | [['N', 'E', 'X', 'T'], k] => (readTimes k).map .nextTimes
  | [['I', 'D', 'L', 'E'], k] => (readTimes k).map .idleTimes
  | [['W', 'O', 'R', 'D'], w] =>
    match readHex 9 w with
    | some v => if v < 2 ^ 34 then some (.word (BitVec.ofNat 34 v)) else none
    | none => none
  | _ => none

/-- The words of a line, its comment dropped. -/
def lineWords (cs : List Char) : List (List Char) :=
  ((cs.takeWhile (· != '#')).splitOnP (fun c => c == ' ' || c == '\t' || c == '\r')).filter (fun w => !w.isEmpty)

/-- The lines of a text from line `number` on, added to the listing read so far; `first` says that no line before
said anything. -/
def readLines : (number : Nat) → (first : Bool) → Listing → List (List Char) → Except ReadError Listing
  | _, _, l, [] => .ok l
  | number, first, l, cs :: rest =>
    match lineWords cs with
    | [] => readLines (number + 1) first l rest
    | ['.', 'c', 'o', 'n', 'f', 'i', 'g'] :: settings =>
      if first then
        match readSettings l settings with
        | some l' => readLines (number + 1) false l' rest
        | none => .error (.unreadable number)
      else .error .misplacedConfig
    | words =>
      match readCommand words with
      | some line => readLines (number + 1) false { l with lines := l.lines ++ [line] } rest
      | none => .error (.unreadable number)

/-- The listing that a text is. -/
def Listing.read (text : List Char) : Except ReadError Listing :=
  readLines 1 true { lines := [] } (text.splitOnP (· == '\n'))

end Sys2Proof.Machine
end

