-- ==== Sys2Proof/Tests/Slice0.lean ====
section
/-!
SUPPORT. Tests on fixed values, each expected result from spec/ (named in its comment), and for every statement with
hypotheses a witness that meets them.
-/

namespace Sys2Proof.Tests

open Sys2Proof Sys2Proof.Machine

/-- The default copy with the given registers and nothing else. -/
def regs (phase pinc sample : F32) : State := { State.reset with phase := phase, pinc := pinc, sample := sample }

/-- The three registers and the last sample emitted after a step with one word presented. -/
def stepWord (s : State) (w : CmdWord) : Option (F32 × F32 × F32 × Option F32) :=
  match step { s with inputs := [Pins.present w] } with
  | .next t => some (t.phase, t.pinc, t.sample, t.stream.getLast?)
  | .fault _ => none
  | .refused _ => none

/-! ### Decoding: words written out bit by bit from 30_encoding.md R73 -/

theorem test_decode_idle_word : decode 0b0_1_11111111111111111111111111111111#34 = .idle := by decide
theorem test_decode_next_word : decode 0b1_0_11011110101011011011111011101111#34 = .next := by decide
theorem test_decode_setf_word : decode 0b1_1_01000001111100000000000000000000#34 = .setf 0x41F00000#32 := by decide
theorem test_decode_bit31_is_the_sign : decode 0b1_1_10000000000000000000000000000000#34 = .setf 0x80000000#32 := by decide
theorem test_decode_table_word : decodeTableWord 40 0x341F00000 = some (.setf 0x41F00000#32) := by decide
theorem test_decode_refuses_wide_number : decodeNumber (2 ^ 34) = .error .widerThanCommandWord := by rfl
theorem test_fetch_word_runs_next :
    stepWord State.reset 0x200000000#34 = some (0#32, 0#32, 0#32, some 0#32) := by decide +kernel

/-! ### Well-formedness: what elaboration refuses (00_scope.md R9) -/

theorem test_config_refuses_n_zero : Config.elaborate 0 44100 [] = .error .nOutOfRange := by rfl
theorem test_config_refuses_rate_zero : Config.elaborate 1 0 [0#32] = .error .sampleRateOutOfRange := by rfl
theorem test_config_refuses_nan_entry : Config.elaborate 2 8 [0#32, 0x7FC00000#32] = .error (.tableEntry 1) := by rfl
theorem test_config_refuses_large_entry : Config.elaborate 1 8 [0xBF800001#32] = .error (.tableEntry 0) := by rfl
theorem test_config_refuses_short_table : Config.elaborate 2 8 [0#32] = .error .tableLength := by rfl
theorem test_config_takes_one_entry : (Config.elaborate 1 1 [0xBF800000#32]).toBool = true := by rfl

/-! ### One step of each command -/

/-- 95_test_vectors.md V5, third row: a word with `valid = 0` and other bits set. -/
theorem test_idle_step : stepWord (regs 0x40400000#32 0x3F000000#32 0x3E788312#32) 0x1FFFFFFFF#34 =
    some (0x40400000#32, 0x3F000000#32, 0x3E788312#32, none) := by decide +kernel

/-- 41_frequency_control.md R131, row 1e-10, with PHASE and SAMPLE kept. -/
theorem test_setf_step : stepWord (regs 0x40400000#32 0x3F000000#32 0x3E788312#32) 0x32EDBE6FF#34 =
    some (0x40400000#32, 0x2A23655A#32, 0x3E788312#32, none) := by decide +kernel

/-- 41_frequency_control.md R131, row 3.0e38: the product overflows. -/
theorem test_setf_overflow : stepWord State.reset 0x37F61B1E6#34 = some (0#32, 0x7F800000#32, 0#32, none) := by
  decide +kernel

/-- 42_sample_generation.md R147, row 10: `i0 = 63`, `i1 = 0`, the sum passes 64. -/
theorem test_next_closes_the_cycle : stepWord (regs 0x427FFFFF#32 0x3F000000#32 0#32) 0x200000000#34 =
    some (0x3F000000#32, 0x3F000000#32, 0xB4C8BD36#32, some 0xB4C8BD36#32) := by decide +kernel

/-- 95_test_vectors.md V4, row 4: a negative increment, negative entries, all four roundings inexact. -/
theorem test_next_negative_increment : stepWord (regs 0x42481234#32 0xBF2377EE#32 0#32) 0x2DEADBEEF#34 =
    some (0x42458454#32, 0xBF2377EE#32, 0xBF7AF8F7#32, some 0xBF7AF8F7#32) := by decide +kernel

/-- 95_test_vectors.md V7, third row: a reset event wins over a SETF presented with it. -/
theorem test_reset_wins : (regs 0x40400000#32 0x3F000000#32 0x3E788312#32).apply ⟨true, 0x341F00000#34⟩ =
    State.reset := by decide +kernel

/-! ### Listings (30_encoding.md R76, R77) -/

/-- R76's examples `SETF 30.0` and `SETF -344.53125`, read from their characters. -/
theorem test_reads_setf_decimals : (readCommand (lineWords "SETF 30.0 # a comment".toList)).map Line.expand =
      some [⟨false, 0x341F00000#34⟩] ∧
    (readCommand (lineWords "SETF -344.53125".toList)).map Line.expand = some [⟨false, 0x3C3AC4400#34⟩] := by
  decide +kernel
/-- 95_test_vectors.md P9's literal with an exponent, and R76 (c). -/
theorem test_reads_exponent_and_infinity :
    readLiteral "-6.890625e-8".toList = some (.decimal true 6890625 (-14)) ∧
    readLiteral "+Inf".toList = some .posInf ∧ readLiteral "1.".toList = none := by decide +kernel
/-- The `.config` line of 95_test_vectors.md P11, with a repeated NEXT and a raw word. -/
theorem test_reads_listing :
    Listing.read ".config N=3 SAMPLE_RATE=48000 TABLE=sine\nRESET\n\nNEXT *5\nWORD 0x2DEADBEEF # x".toList =
      .ok { n := 3, sampleRate := 48000, table := .sine, lines := [.reset, .nextTimes 5, .word 0x2DEADBEEF#34] } := by
  decide +kernel
theorem test_refuses_wide_word : Listing.read "NEXT\nWORD 0x400000000".toList = .error (.unreadable 2) := by
  decide +kernel

/-! ### Arithmetic (95_test_vectors.md V2) -/

theorem test_fadd_tie_to_even : F32.fadd 0x3F800001#32 0x33800000#32 = 0x3F800002#32 := by decide +kernel
theorem test_fmul_subnormal_tie : F32.fmul 0x00000001#32 0x3F000000#32 = 0x00000000#32 := by decide +kernel
theorem test_fdiv_smallest : F32.fdiv 0x00005640#32 0x472C4400#32 = 0x00000001#32 := by decide +kernel
theorem test_frem_negative : F32.frem 0xC3004000#32 0x42800000#32 = 0xBE800000#32 := by decide +kernel
/-- 40_numerics.md R93: a NaN divisor. -/
theorem test_frem_nan_divisor : F32.frem 0x3F800000#32 0xFF800001#32 = 0x7FC00000#32 := by decide +kernel
theorem test_wrap_clamps : Numerics.ieee.wrap 0x42800000#32 0xB6000000#32 = 0x427FFFFF#32 := by decide +kernel
theorem test_wrap_minus_one : Numerics.ieee.wrap 0x42800000#32 0xBF800000#32 = 0x427C0000#32 := by decide +kernel

/-! ### Witnesses: concrete values that meet the hypotheses of the statements -/

theorem witness_IgnoredBits_idle :
    (0x1FFFFFFFF#34).getLsbD 33 = false ∧ (0x000000000#34).getLsbD 33 = false := by decide
theorem witness_IgnoredBits_next : (0x2FFFFFFFF#34).getLsbD 33 = true ∧ (0x200000000#34).getLsbD 33 = true ∧
    (0x2FFFFFFFF#34).getLsbD 32 = false ∧ (0x200000000#34).getLsbD 32 = false := by decide
theorem witness_Step_command :
    ({ State.reset with inputs := [⟨false, 0x341F00000#34⟩] } : State).inputs = ⟨false, 0x341F00000#34⟩ :: [] := rfl
theorem witness_Step_reset :
    ({ State.reset with inputs := [⟨true, 0x200000000#34⟩] } : State).inputs = ⟨true, 0x200000000#34⟩ :: [] := rfl
theorem witness_Step_no_input : State.reset.inputs = [] := rfl
theorem witness_Idle_not_ready :
    (Clocked.outputs ⟨State.reset, .recovering 0, 0⟩ ⟨false, 0x200000000#34⟩).cmdReady = false := rfl
theorem witness_default_instance : State.reset.inst = Config.default ∧ State.reset.inst.n = 64 ∧
    State.reset.inst.sampleRate = 44100 := ⟨rfl, rfl, rfl⟩
theorem witness_Next_example : let s := regs 0x3D32544A#32 0x3D32544A#32 0#32
    s.inst = Config.default ∧ s.phase = 0x3D32544A#32 ∧ s.pinc = 0x3D32544A#32 := ⟨rfl, rfl, rfl⟩
theorem witness_two_states : let s := regs 0#32 1#32 2#32; let t := regs 0#32 1#32 3#32
    s.inst = t.inst ∧ s.phase = t.phase ∧ s.pinc = t.pinc ∧ s ≠ t := ⟨rfl, rfl, rfl, by decide +kernel⟩
theorem witness_phase_bottom : PhaseInRange Config.default 0x00000000#32 := by decide +kernel
theorem witness_phase_top : PhaseInRange Config.default 0x427FFFFF#32 ∧ ¬ PhaseInRange Config.default 0x42800000#32 := by
  decide +kernel
theorem witness_phase_nan : PhaseLegal Config.default F32.cnan ∧ ¬ PhaseInRange Config.default F32.cnan := by
  decide +kernel
theorem witness_phase_becomes_nan : let s := regs 0x427FFFFF#32 0x7F800000#32 0#32
    PhaseInRange s.inst s.phase ∧ F32.isFinite s.pinc = false ∧
    (s.apply (Pins.present 0x200000000#34)).phase = F32.cnan := by decide +kernel
theorem witness_increment_finite : let s := regs 0x427FFFFF#32 0xFF7FFFFF#32 0#32
    PhaseInRange s.inst s.phase ∧ F32.isFinite s.pinc = true := by decide +kernel
/-- A state of a run: a phase in range, an infinite increment, samples at the bound of the table, a NEXT to come. -/
def poised : State :=
  { regs 0x40B00000#32 0x7F800000#32 0xBF800000#32 with
    inputs := [Pins.present 0x200000000#34], stream := [0xBF800000#32] }
theorem witness_invariant : poised.Inv :=
  ⟨by decide +kernel, by decide +kernel, by decide +kernel, fun v hv => by
    rw [List.mem_singleton.1 hv]; decide +kernel⟩
theorem witness_step_answers : ∃ t, step poised = .next t := ⟨_, step_eq_apply poised⟩
theorem witness_no_reset : ∀ p ∈ [Pins.present 0x200000000#34, Pins.quiet], p.rst = false := by decide
theorem witness_legal_negative_zero_increment : let s := regs 0x42000000#32 0x80000000#32 0#32
    PhaseLegal s.inst s.phase ∧ s.pinc = 0x80000000#32 := by decide +kernel
theorem witness_overflow_bound : F32.isNaN 0x7C800000#32 = false ∧
    0x7C800000 ≤ ((0x7C800000#32).extractLsb' 0 31).toNat ∧
    F32.isNaN 0xFC7FFFFF#32 = false ∧ ((0xFC7FFFFF#32).extractLsb' 0 31).toNat < 0x7C800000 := by decide

/-- 63.0, 63.5 and 64.0 by value; the sum 64.0 is in `[N, 2N)`, and 127.99999 still is. -/
theorem witness_values : F32.val 0x427C0000#32 = 63 ∧ F32.val 0x427E0000#32 = 63 + 1 / 2 ∧
    F32.val 0x42800000#32 = 64 ∧ F32.val 0x42FFFFFF#32 < 128 ∧ F32.val 0x00000000#32 = 0 := by
  decide +kernel
theorem witness_integer_phase : 63 < Config.default.n ∧ PhaseInRange Config.default 0x427C0000#32 ∧
    F32.val 0x427C0000#32 = (63 : ℕ) ∧ F32.isZero (romRead Config.default 63) = false ∧
    F32.isZero (romRead Config.default 0) = true ∧ F32.val 0x00000000#32 = (0 : ℕ) := by decide +kernel
theorem witness_midpoint : 31 < Config.default.n ∧ PhaseInRange Config.default 0x41FC0000#32 ∧
    F32.val 0x41FC0000#32 = (31 : ℕ) + 1 / 2 ∧ (2 : ℚ) ^ (-125 : ℤ) ≤ |F32.val (romRead Config.default 31)| ∧
    F32.val (romRead Config.default ((31 + 1) % Config.default.n)) = 0 := by decide +kernel
theorem witness_last_step : PhaseInRange Config.default 0x427C0000#32 ∧
    (Config.default.n : ℚ) - 1 ≤ F32.val 0x427C0000#32 := by decide +kernel
theorem witness_sum_past_the_table : F32.isFinite 0x42800000#32 = true ∧
    (Config.default.n : ℚ) ≤ F32.val 0x42800000#32 ∧ F32.val 0x42FFFFFF#32 < 2 * Config.default.n := by decide +kernel
theorem witness_accumulator : PhaseInRange Config.default 0x427FFFFF#32 ∧ F32.isFinite 0x427FFFFF#32 = true ∧
    0 ≤ F32.val (F32.fadd 0x427FFFFF#32 0x427FFFFF#32) ∧
    F32.val (F32.fadd 0x427FFFFF#32 0x427FFFFF#32) < 2 * Config.default.n := by decide +kernel
theorem witness_classes : F32.isNaN 0x7F800001#32 = true ∧ F32.isInf 0xFF800000#32 = true ∧
    F32.isFinite 0x7F7FFFFF#32 = true ∧ F32.isNormal 0x00800000#32 = true ∧ F32.isSubnormal 0x007FFFFF#32 = true ∧
    F32.isZero 0x80000000#32 = true ∧ F32.isZero 0x00000001#32 = false ∧ F32.sign 0x80000000#32 = true ∧
    F32.sign 0x7F800000#32 = false := by decide
theorem witness_rounding : let x : F32.Exact := ⟨true, 1, 2⟩
    0 < x.den ∧ x.num ≠ 0 ∧ |x.val| ≤ (2 : ℚ) ^ (-150 : ℤ) ∧ F32.val 0x00000001#32 = F32.Exact.val ⟨false, 1, 1⟩ := by
  decide +kernel
theorem witness_sums : F32.val 0x3F800000#32 + F32.val 0xBF800000#32 = 0 ∧
    F32.val 0x7F7FFFFF#32 + F32.val 0x73000000#32 ≠ 0 ∧ F32.val 0x00000001#32 * F32.val 0x3F000000#32 ≠ 0 ∧
    F32.val 0x00000000#32 * F32.val 0xBDC8BD36#32 = 0 ∧ F32.val 0x80000000#32 = 0 := by decide +kernel
theorem witness_divisor : F32.isFinite 0x3F800000#32 = true ∧ 1 ≤ F32.val 0x3F800000#32 ∧
    F32.isFinite 0x7F7FFFFF#32 = true := by decide +kernel
theorem witness_wrap_branches :
    F32.val 0xC2800000#32 - truncQ (F32.val 0xC2800000#32 / 64) * 64 = 0 ∧
    0 < F32.val 0x42810000#32 - truncQ (F32.val 0x42810000#32 / 64) * 64 ∧
    F32.val 0xB6000000#32 - truncQ (F32.val 0xB6000000#32 / 64) * 64 < 0 := by decide +kernel
theorem witness_conversion_bound : 16777216 ≤ 2 ^ 24 ∧ (0 : Nat) ≤ 2 ^ 24 := by decide
theorem witness_same_length_rom : (Config.elaborate 64 8 (List.replicate 64 0x3F800000#32)).toBool = true ∧
    State.reset.inst.n = 64 := ⟨by decide +kernel, rfl⟩
theorem witness_accepts : Clocked.accepts ⟨State.reset, .ready, 0⟩ (Pins.present 0x200000000#34) = true := rfl
theorem witness_phase_nan_state : let s := regs F32.cnan 0x3D32544A#32 0#32
    s.phase = F32.cnan ∧ PhaseLegal s.inst s.phase ∧ Pins.quiet.rst = false ∧ (⟨true, 0#34⟩ : Pins).rst = true := by
  decide +kernel
theorem witness_normal_positive : F32.sign 0x00800000#32 = false ∧ F32.isNormal 0x00800000#32 = true ∧
    F32.sign 0x7F7FFFFF#32 = false ∧ F32.isNormal 0x7F7FFFFF#32 = true := by decide
theorem witness_conversion_table : (0 : Nat) < 1 ∧ F32.isFinite 0x4F000000#32 = true ∧ F32.sign 0x4F000000#32 = false ∧
    F32.isInf 0x7F800000#32 = true := by decide
theorem witness_table_bounds : (1 : Nat) ≤ 31 ∧ 31 < 64 ∧ (32 : Nat) ≤ 32 ∧ 2 * 32 % 64 = 0 := by decide
theorem witness_period_cycles : (List.replicate 3 (0x200000000#34 : CmdWord)).length = 3 := rfl

end Sys2Proof.Tests
end

section
/-!
PROOFS. The derived constants (00_scope.md R8): conversion of a small natural number is exact, patterns of sign 0 are
ordered as their values, and the pattern below a positive normal one is its neighbour.
-/

namespace Sys2Proof.F32

/-- A magnitude is below the binade above its own: `2 ^ 23` units times `2 ^ expo`. -/
theorem units_lt_next_binade (b : F32) : units b < 2 ^ 23 * 2 ^ expo b := by
  have hf := frac_lt b
  rw [units_eq_of_fields]
  split
  case isTrue he => simpa [he] using hf
  case isFalse he =>
    have hpow : 2 ^ expo b = 2 * 2 ^ (expo b - 1) := by rw [← pow_succ', Nat.sub_add_cancel (by omega)]
    rw [hpow, ← mul_assoc]
    exact Nat.mul_lt_mul_of_pos_right (by omega) (by positivity)

theorem units_of_expo_pos {b : F32} (h : 0 < expo b) : units b = (2 ^ 23 + frac b) * 2 ^ (expo b - 1) := by
  rw [units_eq_of_fields, if_neg h.ne']

/-- A larger exponent field wins whatever the fractions are. -/
theorem units_lt_of_expo_lt {a b : F32} (h : expo a < expo b) : units a < units b := by
  calc units a < 2 ^ 23 * 2 ^ expo a := units_lt_next_binade a
    _ ≤ 2 ^ 23 * 2 ^ (expo b - 1) := Nat.mul_le_mul_left _ (Nat.pow_le_pow_right (by norm_num) (by omega))
    _ ≤ (2 ^ 23 + frac b) * 2 ^ (expo b - 1) := Nat.mul_le_mul_right _ (by omega)
    _ = units b := (units_of_expo_pos (by omega)).symm

/-- In one binade the fraction decides. -/
theorem units_lt_of_frac_lt {a b : F32} (he : expo a = expo b) (hf : frac a < frac b) : units a < units b := by
  rw [units_eq_of_fields a, units_eq_of_fields b, he]
  split
  · exact hf
  · exact Nat.mul_lt_mul_of_pos_right (by omega) (by positivity)

theorem toNat_of_sign_false {b : F32} (h : sign b = false) : b.toNat = expo b * 2 ^ 23 + frac b := by
  simpa [h] using toNat_eq_fields b

/-- Patterns of sign 0, read as unsigned integers, are ordered as their magnitudes (40_numerics.md R91). -/
theorem units_lt_of_toNat_lt {a b : F32} (ha : sign a = false) (hb : sign b = false) (h : a.toNat < b.toNat) :
    units a < units b := by
  rw [toNat_of_sign_false ha, toNat_of_sign_false hb] at h
  have hfa := frac_lt a
  have hfb := frac_lt b
  rcases Nat.lt_trichotomy (expo a) (expo b) with he | he | he
  · exact units_lt_of_expo_lt he
  · exact units_lt_of_frac_lt he (by omega)
  · omega

theorem units_le_units_iff {a b : F32} (ha : sign a = false) (hb : sign b = false) :
    units a ≤ units b ↔ a.toNat ≤ b.toNat := by
  constructor
  · intro h
    by_contra hlt
    have := units_lt_of_toNat_lt hb ha (by omega)
    omega
  · intro h
    rcases h.lt_or_eq with hlt | heq
    · exact (units_lt_of_toNat_lt ha hb hlt).le
    · rw [BitVec.eq_of_toNat_eq heq]

theorem units_lt_units_iff {a b : F32} (ha : sign a = false) (hb : sign b = false) :
    units a < units b ↔ a.toNat < b.toNat := by
  simpa only [not_le] using not_congr (units_le_units_iff hb ha)

theorem signedUnits_of_sign_false {b : F32} (h : sign b = false) : signedUnits b = units b := by
  simp [signedUnits, h]

theorem signedUnits_nonpos_of_sign {b : F32} (h : sign b = true) : signedUnits b ≤ 0 := by
  simp [signedUnits, h]

/-- Values of finite patterns are ordered as their numbers of units. -/
theorem val_le_val_iff {a b : F32} (ha : isFinite a = true) (hb : isFinite b = true) :
    val a ≤ val b ↔ signedUnits a ≤ signedUnits b := by
  rw [val_eq_signedUnits a ha, val_eq_signedUnits b hb, mul_le_mul_iff_left₀ (by positivity), Int.cast_le]

theorem val_lt_val_iff {a b : F32} (ha : isFinite a = true) (hb : isFinite b = true) :
    val a < val b ↔ signedUnits a < signedUnits b := by
  simpa only [not_le] using not_congr (val_le_val_iff hb ha)

theorem isNormal_iff (b : F32) : isNormal b = true ↔ 1 ≤ expo b ∧ expo b ≤ 254 := by
  simp [isNormal]

theorem isFinite_iff (b : F32) : isFinite b = true ↔ expo b ≠ 255 := by
  simp [isFinite]

theorem isFinite_of_isNormal {b : F32} (h : isNormal b = true) : isFinite b = true := by
  rw [isNormal_iff] at h
  rw [isFinite_iff]
  omega

/-- The significand of `k` scaled to 24 bits loses nothing while `k ≤ 2 ^ 24`. -/
theorem pow_log2_dvd {k : Nat} (hk : k ≤ 2 ^ 24) (h0 : k ≠ 0) : 2 ^ Nat.log2 k ∣ k * 2 ^ 23 := by
  rcases hk.lt_or_eq with hlt | rfl
  · have hlog : Nat.log2 k < 24 := (Nat.log2_lt h0).2 hlt
    exact Dvd.dvd.mul_left (pow_dvd_pow 2 (by omega)) k
  · rw [Nat.log2_two_pow]
    norm_num

/-- Each `k` in `1 .. 2 ^ 24` has a positive normal pattern (40_numerics.md R99). -/
theorem exists_normal_of_nat {k : Nat} (h1 : 1 ≤ k) (hk : k ≤ 2 ^ 24) :
    ∃ b : F32, sign b = false ∧ isNormal b = true ∧ units b = k * 2 ^ 149 := by
  have h0 : k ≠ 0 := by omega
  have hlog : Nat.log2 k < 25 := (Nat.log2_lt h0).2 (by omega)
  have hlo : 2 ^ Nat.log2 k ≤ k := Nat.log2_self_le h0
  have hhi : k < 2 ^ (Nat.log2 k + 1) := Nat.lt_log2_self
  obtain ⟨m, hm⟩ := pow_log2_dvd hk h0
  have hpos : 0 < 2 ^ Nat.log2 k := by positivity
  have hm1 : 2 ^ 23 ≤ m := by
    refine Nat.le_of_mul_le_mul_left ?_ hpos
    rw [← hm]
    exact Nat.mul_le_mul_right _ hlo
  have hm2 : m < 2 ^ 24 := by
    refine Nat.lt_of_mul_lt_mul_left (a := 2 ^ Nat.log2 k) ?_
    rw [pow_succ] at hhi
    omega
  have hexpo : expo (pack false (127 + Nat.log2 k) (m - 2 ^ 23)) = 127 + Nat.log2 k := by
    rw [expo_pack, Nat.mod_eq_of_lt (by omega)]
  have hfrac : frac (pack false (127 + Nat.log2 k) (m - 2 ^ 23)) = m - 2 ^ 23 := by
    rw [frac_pack, Nat.mod_eq_of_lt (by omega)]
  refine ⟨pack false (127 + Nat.log2 k) (m - 2 ^ 23), sign_pack .., ?_, ?_⟩
  · rw [isNormal_iff, hexpo]
    omega
  · rw [units_of_expo_pos (by omega), hexpo, hfrac, Nat.add_sub_cancel' hm1]
    have hsub : 127 + Nat.log2 k - 1 = Nat.log2 k + 126 := by omega
    calc m * 2 ^ (127 + Nat.log2 k - 1)
      _ = m * 2 ^ (Nat.log2 k + 126) := by rw [hsub]
      _ = 2 ^ Nat.log2 k * m * 2 ^ 126 := by rw [pow_add]; ring
      _ = k * 2 ^ 149 := by rw [← hm]; ring

/-- `u2f` of `k` in `1 .. 2 ^ 24` is the positive normal pattern of exactly `k` (40_numerics.md R99). -/
theorem u2f_exact {k : Nat} (h1 : 1 ≤ k) (hk : k ≤ 2 ^ 24) :
    sign (u2f k) = false ∧ isNormal (u2f k) = true ∧ units (u2f k) = k * 2 ^ 149 := by
  obtain ⟨b, hs, hn, hu⟩ := exists_normal_of_nat h1 hk
  have hz : isZero b = false := by
    rw [← Bool.not_eq_true, ← units_eq_zero_iff, hu]
    positivity
  have hb : u2f k = b := by
    have h := round32_units b false (isFinite_of_isNormal hn) hz
    rwa [hs, hu] at h
  rw [hb]
  exact ⟨hs, hn, hu⟩

theorem val_u2f {k : Nat} (h1 : 1 ≤ k) (hk : k ≤ 2 ^ 24) : val (u2f k) = k := by
  obtain ⟨hs, hn, hu⟩ := u2f_exact h1 hk
  rw [val_eq_signedUnits _ (isFinite_of_isNormal hn), signedUnits_of_sign_false hs, hu]
  push_cast
  rw [mul_assoc]
  norm_num

/-- `pred` of a positive normal pattern is the finite pattern of sign 0 just below it (40_numerics.md R101). -/
theorem pred_fields {b : F32} (hs : sign b = false) (hn : isNormal b = true) :
    sign (pred b) = false ∧ isFinite (pred b) = true ∧ (pred b).toNat + 1 = b.toNat := by
  have hpred : pred b = b - 1#32 := by
    rw [pred, isNaN_of_finite (isFinite_of_isNormal hn), hs, hn]
    rfl
  have hb := toNat_of_sign_false hs
  obtain ⟨hlo, hhi⟩ := (isNormal_iff b).1 hn
  have hfrac := frac_lt b
  have htoNat : (pred b).toNat + 1 = b.toNat := by
    rw [hpred]
    bv_omega
  have hfields := toNat_eq_fields (pred b)
  have hsign : sign (pred b) = false := by
    rw [← Bool.not_eq_true]
    intro h
    rw [h, Bool.toNat_true] at hfields
    omega
  have hexpo : expo (pred b) ≠ 255 := by
    rw [hsign, Bool.toNat_false] at hfields
    omega
  exact ⟨hsign, (isFinite_iff _).2 hexpo, htoNat⟩

theorem val_pred_lt {b : F32} (hs : sign b = false) (hn : isNormal b = true) : val (pred b) < val b := by
  obtain ⟨hps, hpf, hp⟩ := pred_fields hs hn
  rw [val_lt_val_iff hpf (isFinite_of_isNormal hn), signedUnits_of_sign_false hps, signedUnits_of_sign_false hs,
    Int.ofNat_lt]
  exact units_lt_of_toNat_lt hps hs (by omega)

/-- No finite value lies between `pred b` and `b` (40_numerics.md R101). -/
theorem val_le_val_pred {b x : F32} (hs : sign b = false) (hn : isNormal b = true) (hx : isFinite x = true)
    (h : val x < val b) : val x ≤ val (pred b) := by
  obtain ⟨hps, hpf, hp⟩ := pred_fields hs hn
  rw [val_lt_val_iff hx (isFinite_of_isNormal hn), signedUnits_of_sign_false hs] at h
  rw [val_le_val_iff hx hpf, signedUnits_of_sign_false hps]
  cases hxs : sign x with
  | true =>
    have := signedUnits_nonpos_of_sign hxs
    omega
  | false =>
    rw [signedUnits_of_sign_false hxs, Int.ofNat_lt, units_lt_units_iff hxs hs] at h
    rw [signedUnits_of_sign_false hxs, Int.ofNat_le, units_le_units_iff hxs hps]
    omega

end Sys2Proof.F32

namespace Sys2Proof.Config

theorem one_le_idxw (c : Config) : 1 ≤ c.idxw := by
  unfold idxw
  split <;> omega

/-- `IDXW` is at most `k` exactly when `k` bits hold every index (00_scope.md R8). -/
theorem idxw_le_iff (c : Config) {k : Nat} (hk : 1 ≤ k) : c.idxw ≤ k ↔ c.n ≤ 2 ^ k := by
  unfold idxw
  split
  case isTrue hn =>
    have : 2 ^ 1 ≤ 2 ^ k := Nat.pow_le_pow_right (by norm_num) hk
    omega
  case isFalse hn =>
    have := Nat.log2_lt (n := c.n - 1) (k := k) (by omega)
    omega

theorem val_nf (c : Config) : F32.val c.nf = c.n := F32.val_u2f c.n_legal.1 c.n_legal.2

theorem val_srf (c : Config) : F32.val c.srf = c.sampleRate :=
  F32.val_u2f c.sampleRate_legal.1 c.sampleRate_legal.2

theorem nf_positive_normal (c : Config) : F32.sign c.nf = false ∧ F32.isNormal c.nf = true := by
  obtain ⟨hs, hn, -⟩ := F32.u2f_exact c.n_legal.1 c.n_legal.2
  exact ⟨hs, hn⟩

theorem predN_finite (c : Config) : F32.isFinite c.predN = true := by
  obtain ⟨hs, hn⟩ := c.nf_positive_normal
  obtain ⟨-, hf, -⟩ := F32.pred_fields hs hn
  exact hf

theorem val_predN_lt (c : Config) : F32.val c.predN < c.n := by
  obtain ⟨hs, hn⟩ := c.nf_positive_normal
  exact c.val_nf ▸ F32.val_pred_lt hs hn

theorem val_le_val_predN (c : Config) {x : F32} (hx : F32.isFinite x = true) (h : F32.val x < c.n) :
    F32.val x ≤ F32.val c.predN := by
  obtain ⟨hs, hn⟩ := c.nf_positive_normal
  exact F32.val_le_val_pred hs hn hx (c.val_nf.symm ▸ h)

/-- The column of R8's table with the values at the defaults. -/
theorem default_constants : Config.default.nf = 0x42800000#32 ∧ Config.default.srf = 0x472C4400#32 ∧
    Config.default.predN = 0x427FFFFF#32 ∧ Config.default.idxw = 6 := by
  decide +kernel

end Sys2Proof.Config

namespace Sys2Proof

/-- Settles O50: `N_f` and `SR_f` by exactness of `u2f`, `PRED_N` by the order of the patterns of sign 0, `IDXW` by the
width that `idxw_le_iff` characterises. -/
theorem derivedConstants : Obligations.DerivedConstants := by
  refine ⟨fun c => ⟨c.val_nf, c.val_srf, c.predN_finite, c.val_predN_lt, fun x => c.val_le_val_predN,
    c.one_le_idxw, (c.idxw_le_iff c.one_le_idxw).1 le_rfl, fun k hk => (c.idxw_le_iff hk).2, rfl⟩,
    Config.default_constants⟩

end Sys2Proof
end

section
/-!
PROOFS. Rounding in whole units (40_numerics.md R92): what `round32` answers as a number of units, when that is the
number given, that it does not pass a pattern above, and that the remainder is therefore exact (R98).
-/

namespace Sys2Proof.F32

theorem isFinite_pack (s : Bool) {e : Nat} (f : Nat) (he : e ≤ 254) : isFinite (pack s e f) = true := by
  rw [isFinite_iff, expo_pack]
  omega

theorem units_pack_subnormal (s : Bool) {f : Nat} (hf : f < 2 ^ 23) : units (pack s 0 f) = f := by
  rw [units_eq_of_fields, expo_pack, frac_pack, if_pos rfl, Nat.mod_eq_of_lt hf]

theorem units_pack_normal (s : Bool) {e f : Nat} (he : e ≤ 253) (hf : f < 2 ^ 23) :
    units (pack s (e + 1) f) = (2 ^ 23 + f) * 2 ^ e := by
  have hexpo : expo (pack s (e + 1) f) = e + 1 := by rw [expo_pack, Nat.mod_eq_of_lt (by omega)]
  rw [units_of_expo_pos (by omega), hexpo, frac_pack, Nat.mod_eq_of_lt hf, Nat.add_sub_cancel]

/-- A significand that fits is assembled to a finite pattern of exactly its units (40_numerics.md R92). -/
theorem assemble_of_fits (s : Bool) {m t : Nat} (hm : m ≤ 2 ^ 24) (hlo : t = 0 ∨ 2 ^ 23 ≤ m)
    (hfit : m * 2 ^ t < 2 ^ 24 * 2 ^ 253) : isFinite (assemble s m t) = true ∧ units (assemble s m t) = m * 2 ^ t := by
  rcases assemble_cases s m t hm with ⟨-, hover⟩ | ⟨ht, hm', h⟩ | ⟨ht, hm1, hm2, h⟩ | ⟨ht, rfl, h⟩
  · exfalso
    rcases hover with ht | ⟨rfl, rfl⟩
    · have : 2 ^ 23 * 2 ^ 254 ≤ m * 2 ^ t :=
        Nat.mul_le_mul (by omega) (Nat.pow_le_pow_right (by norm_num) (by omega))
      omega
    · omega
  · obtain rfl : t = 0 := by omega
    rw [h, units_pack_subnormal s hm', pow_zero, mul_one]
    exact ⟨isFinite_pack s m (by omega), rfl⟩
  · rw [h, units_pack_normal s ht (by omega), Nat.add_sub_cancel' hm1]
    exact ⟨isFinite_pack s _ (by omega), rfl⟩
  · rw [h, units_pack_normal s (by omega : t + 1 ≤ 253) (by norm_num)]
    exact ⟨isFinite_pack s 0 (by omega), by ring⟩

theorem nearestEven_le {num den m : Nat} (hd : 0 < den) (h : 2 * num < (2 * m + 1) * den) :
    nearestEven num den ≤ m := by
  obtain ⟨hle, -, -⟩ := nearestEven_spec num den hd
  have : nearestEven num den * den < (m + 1) * den := by linarith
  exact Nat.le_of_lt_succ (Nat.lt_of_mul_lt_mul_right this)

theorem le_nearestEven {num den m : Nat} (hd : 0 < den) (h : m * den ≤ num) : m ≤ nearestEven num den := by
  obtain ⟨-, hle, -⟩ := nearestEven_spec num den hd
  have : m * den < (nearestEven num den + 1) * den := by linarith
  exact Nat.le_of_lt_succ (Nat.lt_of_mul_lt_mul_right this)

/-- A common factor of numerator and denominator does not change the nearest integer. -/
theorem nearestEven_mul_right (num den : Nat) {d : Nat} (hd : 0 < d) :
    nearestEven (num * d) (den * d) = nearestEven num den := by
  have hlt (a b : Nat) : 2 * (a * d) < b * d ↔ 2 * a < b := by
    rw [← mul_assoc, Nat.mul_lt_mul_right hd]
  have hgt (a b : Nat) : b * d < 2 * (a * d) ↔ b < 2 * a := by
    rw [← mul_assoc, Nat.mul_lt_mul_right hd]
  simp only [nearestEven, Nat.mul_div_mul_right _ _ hd, Nat.mul_mod_mul_right, hlt, hgt]

theorem lt_of_binade (num : Nat) {den : Nat} (hd : 0 < den) :
    num < 2 ^ 24 * (den * 2 ^ binade num den) := by
  have hq : num / den < 2 ^ (24 + binade num den) :=
    Nat.lt_log2_self.trans_le (Nat.pow_le_pow_right (by norm_num) (by unfold binade; omega))
  rw [Nat.div_lt_iff_lt_mul hd, pow_add] at hq
  linarith

theorem le_of_binade_pos {num den : Nat} (hd : 0 < den) (h : 0 < binade num den) :
    2 ^ 23 * (den * 2 ^ binade num den) ≤ num := by
  have hlog : Nat.log2 (num / den) = 23 + binade num den := by unfold binade at *; omega
  have hne : num / den ≠ 0 := by
    intro h0
    rw [h0, Nat.log2_zero] at hlog
    omega
  have hq := Nat.log2_self_le hne
  rw [hlog, Nat.le_div_iff_mul_le hd, pow_add] at hq
  linarith

/-- The significand that rounding chooses: at most `2 ^ 24`, at least `2 ^ 23` above the lowest binade (R92). -/
theorem significand_bounds (num : Nat) {den : Nat} (hd : 0 < den) :
    nearestEven num (den * 2 ^ binade num den) ≤ 2 ^ 24 ∧
    (binade num den = 0 ∨ 2 ^ 23 ≤ nearestEven num (den * 2 ^ binade num den)) := by
  have hpos : 0 < den * 2 ^ binade num den := by positivity
  constructor
  · exact nearestEven_le hpos (by linarith [lt_of_binade num hd])
  · exact (Nat.eq_zero_or_pos _).imp_right fun h => le_nearestEven hpos (le_of_binade_pos hd h)

/-- The number of units that `num / den` rounds to, as long as it does not overflow (40_numerics.md R92). -/
def roundedUnits (num den : Nat) : Nat :=
  nearestEven num (den * 2 ^ binade num den) * 2 ^ binade num den

/-- Rounding answers `roundedUnits` where that is below the overflow to infinity. -/
theorem round32_of_fits {x : Exact} (s0 : Bool) (hd : 0 < x.den) (h : roundedUnits x.num x.den < 2 ^ 24 * 2 ^ 253) :
    isFinite (round32 x s0) = true ∧ units (round32 x s0) = roundedUnits x.num x.den := by
  unfold round32
  split
  case isTrue h0 =>
    have hzero : nearestEven 0 (x.den * 2 ^ binade 0 x.den) = 0 := by
      simpa using nearestEven_mul 0 (x.den * 2 ^ binade 0 x.den) (by positivity)
    rw [units_zero, roundedUnits, h0, hzero, zero_mul]
    exact ⟨isFinite_pack s0 0 (by omega), rfl⟩
  case isFalse h0 =>
    obtain ⟨hm, hlo⟩ := significand_bounds x.num hd
    exact assemble_of_fits x.neg hm hlo h

/-- No overflow below `2^128 - 2^103`, which is half a spacing above the largest finite value (40_numerics.md R92). -/
theorem roundedUnits_lt {num den : Nat} (hd : 0 < den) (h : 2 * num < (2 ^ 25 - 1) * (den * 2 ^ 253)) :
    roundedUnits num den < 2 ^ 24 * 2 ^ 253 := by
  obtain ⟨hm, -⟩ := significand_bounds num hd
  unfold roundedUnits
  rcases Nat.lt_trichotomy (binade num den) 253 with ht | ht | ht
  · calc nearestEven num (den * 2 ^ binade num den) * 2 ^ binade num den
      _ ≤ 2 ^ 24 * 2 ^ 252 := Nat.mul_le_mul hm (Nat.pow_le_pow_right (by norm_num) (by omega))
      _ < 2 ^ 24 * 2 ^ 253 := by norm_num
  · have : nearestEven num (den * 2 ^ 253) ≤ 2 ^ 24 - 1 := nearestEven_le (by positivity) (by simpa using h)
    rw [ht]
    omega
  · exfalso
    have hlo := le_of_binade_pos (num := num) hd (by omega)
    have hstep : 2 * (den * 2 ^ 253) ≤ den * 2 ^ binade num den := by
      rw [mul_left_comm, ← pow_succ']
      exact Nat.mul_le_mul_left _ (Nat.pow_le_pow_right (by norm_num) ht)
    generalize den * 2 ^ 253 = d at *
    generalize den * 2 ^ binade num den = d' at *
    omega

/-- A whole number of units that the spacing of its binade divides is not rounded. -/
theorem roundedUnits_of_dvd {k : Nat} (h : 2 ^ binade k 1 ∣ k) : roundedUnits k 1 = k := by
  obtain ⟨j, hj⟩ := h
  have hmul : nearestEven k (2 ^ binade k 1) = j := by
    have := nearestEven_mul j (2 ^ binade k 1) (by positivity)
    rwa [mul_comm, ← hj] at this
  rw [roundedUnits, one_mul, hmul, mul_comm, ← hj]

theorem binade_le {k e : Nat} (h : k < 2 ^ 24 * 2 ^ e) : binade k 1 ≤ e := by
  unfold binade
  rw [Nat.div_one]
  rcases Nat.eq_zero_or_pos k with rfl | hk
  · simp
  · rw [← pow_add, ← Nat.log2_lt hk.ne'] at h
    omega

/-- A multiple of `2 ^ e` units with at most 24 significant bits above it is not rounded (40_numerics.md R92). -/
theorem roundedUnits_of_multiple {k e : Nat} (hdvd : 2 ^ e ∣ k) (hlt : k < 2 ^ 24 * 2 ^ e) : roundedUnits k 1 = k :=
  roundedUnits_of_dvd ((pow_dvd_pow 2 (binade_le hlt)).trans hdvd)

/-- The spacing of a pattern's own binade divides its units, which are below `2 ^ 24` of that spacing. -/
theorem units_multiple (b : F32) : 2 ^ (expo b - 1) ∣ units b ∧ units b < 2 ^ 24 * 2 ^ (expo b - 1) := by
  have hf := frac_lt b
  rw [units_eq_of_fields]
  split
  case isTrue he =>
    rw [he]
    exact ⟨one_dvd _, by omega⟩
  case isFalse he => exact ⟨Dvd.intro_left _ rfl, Nat.mul_lt_mul_of_pos_right (by omega) (by positivity)⟩

/-- Rounding does not pass a pattern above: a pattern bounds what is rounded as well as what is not. -/
theorem roundedUnits_le {k : Nat} {b : F32} (h : k ≤ units b) : roundedUnits k 1 ≤ units b := by
  obtain ⟨hdvd, hlt⟩ := units_multiple b
  obtain ⟨j, hj⟩ := (pow_dvd_pow 2 (binade_le (h.trans_lt hlt))).trans hdvd
  have hk : k ≤ 2 ^ binade k 1 * j := hj ▸ h
  have hm : nearestEven k (2 ^ binade k 1) ≤ j :=
    nearestEven_le (by positivity) (by linarith [Nat.two_pow_pos (binade k 1)])
  calc roundedUnits k 1
    _ = nearestEven k (2 ^ binade k 1) * 2 ^ binade k 1 := by rw [roundedUnits, one_mul]
    _ ≤ j * 2 ^ binade k 1 := Nat.mul_le_mul_right _ hm
    _ = units b := by rw [hj, mul_comm]

theorem units_lt_of_finite {b : F32} (h : isFinite b = true) : units b < 2 ^ 24 * 2 ^ 253 :=
  (units_le b h).trans_lt (by norm_num)

@[simp] theorem natAbs_signedUnits (b : F32) : (signedUnits b).natAbs = units b := by
  unfold signedUnits
  split <;> simp

theorem sign_round32_ofInt {z : Int} (h : z ≠ 0) (s0 : Bool) : sign (round32 (Exact.ofInt z) s0) = decide (z < 0) := by
  rw [sign_round32, if_neg (by simpa [Exact.ofInt] using h)]
  rfl

/-- A sum or a remainder with few enough significant bits is a pattern, and it is what rounding answers. -/
theorem round32_ofInt_exact {z : Int} {e : Nat} (s0 : Bool) (hdvd : 2 ^ e ∣ z.natAbs) (hlt : z.natAbs < 2 ^ 24 * 2 ^ e)
    (hfit : z.natAbs < 2 ^ 24 * 2 ^ 253) :
    isFinite (round32 (Exact.ofInt z) s0) = true ∧ signedUnits (round32 (Exact.ofInt z) s0) = z := by
  have hround : roundedUnits z.natAbs 1 = z.natAbs := roundedUnits_of_multiple hdvd hlt
  obtain ⟨hf, hu⟩ := round32_of_fits (x := Exact.ofInt z) s0 Nat.one_pos (hround.trans_lt hfit)
  have hu : units (round32 (Exact.ofInt z) s0) = z.natAbs := hu.trans hround
  refine ⟨hf, ?_⟩
  rw [signedUnits, hu]
  rcases eq_or_ne z 0 with rfl | hz
  · simp
  · simp only [sign_round32_ofInt hz, decide_eq_true_eq]
    split <;> omega

/-- The remainder is exact: every remainder of finite values has a pattern (40_numerics.md R98). -/
theorem frem_exact {a n : F32} (ha : isFinite a = true) (hn : isFinite n = true) (h0 : isZero n = false) :
    isFinite (frem a n) = true ∧ signedUnits (frem a n) = (signedUnits a).tmod (signedUnits n) := by
  obtain ⟨hda, hla⟩ := units_multiple a
  obtain ⟨hdn, hln⟩ := units_multiple n
  have habs : ((signedUnits a).tmod (signedUnits n)).natAbs = units a % units n := by simp [Int.natAbs_tmod]
  have hpos : 0 < units n := by
    rw [Nat.pos_iff_ne_zero, Ne, units_eq_zero_iff, h0]
    decide
  have hmod_lt : units a % units n < units n := Nat.mod_lt _ hpos
  have hmod_le : units a % units n ≤ units a := Nat.mod_le _ _
  rw [frem_of_finite ha hn h0]
  refine round32_ofInt_exact (e := min (expo a - 1) (expo n - 1)) _ ?_ ?_ ?_ <;> rw [habs]
  · exact (Nat.dvd_mod_iff ((pow_dvd_pow 2 (min_le_right _ _)).trans hdn)).2
      ((pow_dvd_pow 2 (min_le_left _ _)).trans hda)
  · rcases min_choice (expo a - 1) (expo n - 1) with h | h <;> rw [h] <;> omega
  · exact hmod_lt.trans (units_lt_of_finite hn)

end Sys2Proof.F32
end

section
/-!
PROOFS. The phase (10_state.md R22): what being in `[0, N)` says of a pattern, that the accumulator stays there for a
finite increment and answers the canonical NaN for any other, and the rule for every input and every run.
-/

namespace Sys2Proof.F32

theorem fadd_of_inf_right {a b : F32} (ha : isFinite a = true) (hb : isInf b = true) (hn : isNaN b = false) :
    fadd a b = b := by
  simp [fadd, isNaN_of_finite ha, isInf_of_finite ha, hb, hn]

/-- A sum with an infinite or NaN second operand is no number. -/
theorem fadd_not_finite {a b : F32} (ha : isFinite a = true) (hb : isFinite b = false) :
    isFinite (fadd a b) = false := by
  rcases inf_or_nan_of_not_finite hb with ⟨hinf, hnan⟩ | ⟨-, hnan⟩
  · rwa [fadd_of_inf_right ha hinf hnan]
  · rw [fadd_nan (.inr hnan), isFinite_cnan]

/-- A sum does not overflow when one operand is at most `2 ^ 24` in magnitude: that is below half a spacing of the
largest finite value (42_sample_generation.md R144). -/
theorem isFinite_fadd {a b : F32} (ha : isFinite a = true) (hb : isFinite b = true)
    (hsmall : units a ≤ 2 ^ 24 * 2 ^ 149) : isFinite (fadd a b) = true := by
  have hsum : (signedUnits a + signedUnits b).natAbs ≤ units a + units b := by
    simpa using Int.natAbs_add_le (signedUnits a) (signedUnits b)
  have hbound := units_le b hb
  rw [fadd_of_finite ha hb]
  split
  · exact isFinite_pack _ 0 (by omega)
  · have hfits := roundedUnits_lt (num := (signedUnits a + signedUnits b).natAbs) Nat.one_pos (by omega)
    exact (round32_of_fits (x := Exact.ofInt _) false Nat.one_pos hfits).1

end Sys2Proof.F32

namespace Sys2Proof.Config

theorem nf_finite (c : Config) : F32.isFinite c.nf = true :=
  F32.isFinite_of_isNormal c.nf_positive_normal.2

theorem units_nf (c : Config) : F32.units c.nf = c.n * 2 ^ 149 :=
  (F32.u2f_exact c.n_legal.1 c.n_legal.2).2.2

theorem units_nf_pos (c : Config) : 0 < F32.units c.nf := by
  rw [c.units_nf]
  exact Nat.mul_pos c.n_pos (by positivity)

theorem nf_not_zero (c : Config) : F32.isZero c.nf = false := by
  rw [← Bool.not_eq_true, ← F32.units_eq_zero_iff]
  exact c.units_nf_pos.ne'

theorem signedUnits_nf (c : Config) : F32.signedUnits c.nf = F32.units c.nf :=
  F32.signedUnits_of_sign_false c.nf_positive_normal.1

theorem predN_sign (c : Config) : F32.sign c.predN = false :=
  (F32.pred_fields c.nf_positive_normal.1 c.nf_positive_normal.2).1

theorem predN_toNat (c : Config) : c.predN.toNat + 1 = c.nf.toNat :=
  (F32.pred_fields c.nf_positive_normal.1 c.nf_positive_normal.2).2.2

end Sys2Proof.Config

namespace Sys2Proof.Machine

variable {c : Config} {p d : F32}

/-- A pattern at most that of `PRED_N` is finite and of sign 0: sign and exponent are its leading bits. -/
theorem PhaseInRange.finite_sign_false (h : PhaseInRange c p) : F32.isFinite p = true ∧ F32.sign p = false := by
  have hfields := F32.toNat_eq_fields p
  have hpred := F32.toNat_of_sign_false c.predN_sign
  have hexpo := (F32.isFinite_iff _).1 c.predN_finite
  have hexpo_lt := F32.expo_lt c.predN
  have hfrac_lt := F32.frac_lt c.predN
  have hsign : F32.sign p = false := by
    rw [← Bool.not_eq_true]
    intro hs
    rw [hs, Bool.toNat_true] at hfields
    unfold PhaseInRange at h
    omega
  rw [hsign, Bool.toNat_false] at hfields
  unfold PhaseInRange at h
  exact ⟨(F32.isFinite_iff _).2 (by omega), hsign⟩

/-- 10_state.md R22 case (a) in units of `2^-149`. -/
theorem phaseInRange_iff_units : PhaseInRange c p ↔ F32.sign p = false ∧ F32.units p < F32.units c.nf := by
  have hlt (hs : F32.sign p = false) : F32.units p < F32.units c.nf ↔ PhaseInRange c p := by
    rw [F32.units_lt_units_iff hs c.nf_positive_normal.1, ← c.predN_toNat, Nat.lt_succ_iff]
  constructor
  · intro h
    obtain ⟨-, hs⟩ := h.finite_sign_false
    exact ⟨hs, (hlt hs).2 h⟩
  · rintro ⟨hs, hu⟩
    exact (hlt hs).1 hu

/-- 10_state.md R22 case (a) as a value in `[0, N)`. -/
theorem phaseInRange_iff_val :
    PhaseInRange c p ↔ F32.isFinite p = true ∧ F32.sign p = false ∧ F32.val p < c.n := by
  have hval (hf : F32.isFinite p = true) (hs : F32.sign p = false) :
      F32.val p < c.n ↔ F32.units p < F32.units c.nf := by
    rw [← c.val_nf, F32.val_lt_val_iff hf c.nf_finite, F32.signedUnits_of_sign_false hs, c.signedUnits_nf, Int.ofNat_lt]
  constructor
  · intro h
    obtain ⟨hf, hs⟩ := h.finite_sign_false
    exact ⟨hf, hs, (hval hf hs).2 (phaseInRange_iff_units.1 h).2⟩
  · rintro ⟨hf, hs, hv⟩
    exact phaseInRange_iff_units.2 ⟨hs, (hval hf hs).1 hv⟩

theorem phaseInRange_zero (c : Config) : PhaseInRange c 0x00000000#32 := Nat.zero_le _

theorem PhaseInRange.ne_cnan (h : PhaseInRange c p) : p ≠ F32.cnan := by
  rintro rfl
  simpa using h.finite_sign_false.1

/-- A negative remainder raised by `N` is in `[0, N)` or rounds to `N` itself, where the largest value below `N` is
taken (40_numerics.md R103, 90_conflicts.md C1). -/
theorem raised_remainder_inRange {r : F32} (hf : F32.isFinite r = true) (hneg : F32.signedUnits r < 0)
    (hlt : F32.units r < F32.units c.nf) :
    PhaseInRange c (if F32.fadd r c.nf = c.nf then c.predN else F32.fadd r c.nf) := by
  split
  case isTrue => exact le_refl _
  case isFalse hne =>
    have hpos : 0 < F32.signedUnits r + F32.units c.nf := by
      have := F32.natAbs_signedUnits r
      omega
    have hround : F32.fadd r c.nf = F32.round32 (.ofInt (F32.signedUnits r + F32.units c.nf)) false := by
      rw [F32.fadd_of_finite hf c.nf_finite, c.signedUnits_nf, if_neg hpos.ne']
    have hle : F32.roundedUnits (F32.signedUnits r + F32.units c.nf).natAbs 1 ≤ F32.units c.nf :=
      F32.roundedUnits_le (by omega)
    have hu : F32.units (F32.fadd r c.nf) ≤ F32.units c.nf := by
      rw [hround]
      exact (F32.round32_of_fits (x := .ofInt _) false Nat.one_pos
        (hle.trans_lt (F32.units_lt_of_finite c.nf_finite))).2.trans_le hle
    have hs : F32.sign (F32.fadd r c.nf) = false := by
      rw [hround, F32.sign_round32_ofInt hpos.ne', decide_eq_false_iff_not]
      omega
    have hsn := c.nf_positive_normal.1
    refine phaseInRange_iff_units.2 ⟨hs, lt_of_le_of_ne hu fun heq => hne (BitVec.eq_of_toNat_eq (le_antisymm ?_ ?_))⟩
    · exact (F32.units_le_units_iff hs hsn).1 heq.le
    · exact (F32.units_le_units_iff hsn hs).1 heq.ge

/-- The reduction of a finite sum lands in `[0, N)` (40_numerics.md R103). -/
theorem wrap_inRange {s : F32} (hs : F32.isFinite s = true) : PhaseInRange c (Numerics.ieee.wrap c.nf s) := by
  obtain ⟨hf, hr⟩ := F32.frem_exact hs c.nf_finite c.nf_not_zero
  have hlt : F32.units (F32.frem s c.nf) < F32.units c.nf := by
    rw [← F32.natAbs_signedUnits, hr, Int.natAbs_tmod]
    simpa using Nat.mod_lt _ c.units_nf_pos
  rcases Numerics.wrap_cases Numerics.ieee c.nf s with ⟨hnan, -⟩ | ⟨-, -, h⟩ | ⟨-, -, hsign, h⟩ | ⟨-, hz, hsign, h⟩
  · rw [Numerics.ieee_fisNan, Numerics.ieee_frem, F32.isNaN_of_finite hf] at hnan
    cases hnan
  · exact h ▸ phaseInRange_zero c
  · exact h ▸ phaseInRange_iff_units.2 ⟨hsign, hlt⟩
  · rw [h]
    have hu : F32.units (F32.frem s c.nf) ≠ 0 := by
      rw [Ne, F32.units_eq_zero_iff, ← Numerics.ieee_frem, ← Numerics.ieee_fisZero, hz]
      decide
    have hneg : F32.signedUnits (F32.frem s c.nf) < 0 := by
      have := F32.natAbs_signedUnits (F32.frem s c.nf)
      have := F32.signedUnits_nonpos_of_sign hsign
      rw [Numerics.ieee_frem] at this
      omega
    exact raised_remainder_inRange hf hneg hlt

theorem wrap_of_not_finite {s : F32} (nf : F32) (hs : F32.isFinite s = false) :
    Numerics.ieee.wrap nf s = F32.cnan := by
  simp [Numerics.wrap, F32.frem_of_not_finite nf hs]

/-- For a finite increment of either sign and any magnitude the accumulator stays in `[0, N)` (R144, R153). -/
theorem advance_inRange (hp : PhaseInRange c p) (hd : F32.isFinite d = true) :
    PhaseInRange c (advance Numerics.ieee c p d) := by
  obtain ⟨hf, -⟩ := hp.finite_sign_false
  have hlt := (phaseInRange_iff_units.1 hp).2
  have hn : F32.units c.nf ≤ 2 ^ 24 * 2 ^ 149 := by
    rw [c.units_nf]
    exact Nat.mul_le_mul_right _ c.n_legal.2
  exact wrap_inRange (F32.isFinite_fadd hf hd (hlt.le.trans hn))

/-- An infinite or NaN increment makes the phase the canonical NaN (42_sample_generation.md R149,
90_conflicts.md C2). -/
theorem advance_of_not_finite (hp : PhaseInRange c p) (hd : F32.isFinite d = false) :
    advance Numerics.ieee c p d = F32.cnan :=
  wrap_of_not_finite _ (F32.fadd_not_finite hp.finite_sign_false.1 hd)

/-- The canonical NaN phase stays whatever the increment is (42_sample_generation.md R149). -/
@[simp] theorem advance_cnan (c : Config) (d : F32) : advance Numerics.ieee c F32.cnan d = F32.cnan := by
  apply wrap_of_not_finite
  rw [Numerics.ieee_fadd, F32.fadd_nan (.inl F32.isNaN_cnan), F32.isFinite_cnan]

theorem advance_legal (h : PhaseLegal c p) (d : F32) : PhaseLegal c (advance Numerics.ieee c p d) := by
  rcases h with h | rfl
  · cases hd : F32.isFinite d with
    | true => exact .inl (advance_inRange h hd)
    | false => exact .inr (advance_of_not_finite h hd)
  · exact .inr (advance_cnan c d)

/-- What one input does to PHASE: a reset event clears it, a NEXT advances it, everything else keeps it
(10_state.md R30). -/
theorem apply_phase_cases (s : State) (p : Pins) :
    (p.rst = true ∧ (s.apply p).phase = 0x00000000#32) ∨
    (p.rst = false ∧ p.isNext = false ∧ (s.apply p).phase = s.phase) ∨
    (p.rst = false ∧ p.isNext = true ∧ (s.apply p).phase = advance Numerics.ieee s.inst s.phase s.pinc) := by
  have hevent (hr : p.rst = false) : p.event = .command (decode p.word) := by simp [Pins.event, hr]
  rcases apply_cases s p with ⟨hr, h⟩ | ⟨hr, hi, h⟩ | ⟨hr, hi, h⟩ | ⟨hr, f, hi, h⟩
  · exact .inl ⟨hr, by rw [h, State.resetEvent_phase]⟩
  · exact .inr (.inl ⟨hr, by rw [Pins.isNext, hevent hr, hi]; rfl, by rw [h]⟩)
  · exact .inr (.inr ⟨hr, by rw [Pins.isNext, hevent hr, hi]; rfl, by rw [h]; rfl⟩)
  · exact .inr (.inl ⟨hr, by rw [Pins.isNext, hevent hr, hi]; rfl, by rw [h]; rfl⟩)

/-- Every input keeps PHASE legal (10_state.md R22). -/
theorem apply_phaseLegal {s : State} (h : PhaseLegal s.inst s.phase) (p : Pins) :
    PhaseLegal s.inst (s.apply p).phase := by
  rcases apply_phase_cases s p with ⟨-, hp⟩ | ⟨-, -, hp⟩ | ⟨-, -, hp⟩ <;> rw [hp]
  · exact .inl (phaseInRange_zero _)
  · exact h
  · exact advance_legal h _

/-- The NaN comes only from a NEXT with an increment that is not finite. -/
theorem cause_of_phase_nan {s : State} {p : Pins} (h : PhaseInRange s.inst s.phase)
    (hnan : (s.apply p).phase = F32.cnan) :
    p.isNext = true ∧ F32.isFinite s.pinc = false := by
  rcases apply_phase_cases s p with ⟨-, hp⟩ | ⟨-, -, hp⟩ | ⟨-, hnext, hp⟩ <;> rw [hp] at hnan
  · exact absurd hnan (phaseInRange_zero s.inst).ne_cnan
  · exact absurd hnan h.ne_cnan
  · refine ⟨hnext, ?_⟩
    rw [← Bool.not_eq_true]
    exact fun hd => (advance_inRange h hd).ne_cnan hnan

theorem phase_nan_stays {s : State} {p : Pins} (h : s.phase = F32.cnan) (hr : p.rst = false) :
    (s.apply p).phase = F32.cnan := by
  rcases apply_phase_cases s p with ⟨hr', -⟩ | ⟨-, -, hp⟩ | ⟨-, -, hp⟩
  · rw [hr] at hr'
    cases hr'
  · rw [hp, h]
  · rw [hp, h, advance_cnan]

/-- Every run from a legal phase ends in a legal phase. -/
theorem play_phaseLegal {s : State} (h : PhaseLegal s.inst s.phase) (ps : List Pins) :
    PhaseLegal s.inst (s.play ps).phase := by
  induction ps generalizing s with
  | nil => exact h
  | cons p ps ih =>
    rw [play_cons, ← apply_inst s p]
    exact ih (apply_inst s p ▸ apply_phaseLegal h p)

/-- Settles O19, by the rule for one input (`apply_phase_cases`, `advance_legal`) and induction on the inputs. -/
theorem phaseStaysInTableOrNaN : Obligations.PhaseStaysInTableOrNaN := by
  refine ⟨fun c ps => ?_, fun c p => phaseInRange_iff_val, fun s p h => ?_⟩
  · exact play_phaseLegal (s := { State.reset with inst := c }) (.inl (phaseInRange_zero c)) ps
  · refine ⟨apply_phaseLegal h p, cause_of_phase_nan, phase_nan_stays, fun hr => ?_⟩
    rcases apply_phase_cases s p with ⟨-, hp⟩ | ⟨hr', -⟩ | ⟨hr', -⟩
    · exact hp
    all_goals
      rw [hr] at hr'
      cases hr'

end Sys2Proof.Machine
end

section
/-!
PROOFS. After a reset event: what it leaves (10_state.md R31), what NEXT returns before the first SETF (R32, by the
identities of zero and one, 40_numerics.md R107 (e)), and what SAMPLE holds (R24).
-/

namespace Sys2Proof.F32

theorem round32_scale (s s0 : Bool) (k : Nat) {d : Nat} (hd : 0 < d) :
    round32 ⟨s, k * d, d⟩ s0 = round32 ⟨s, k, 1⟩ s0 := by
  have hb : binade (k * d) d = binade k 1 := by rw [binade, binade, Nat.mul_div_cancel _ hd, Nat.div_one]
  simp only [round32, hb, mul_eq_zero, hd.ne', or_false, one_mul, mul_comm d, nearestEven_mul_right _ _ hd]

theorem eq_zero_of_isZero {b : F32} (h : isZero b = true) : b = zero (sign b) := by
  obtain ⟨he, hf⟩ := (isZero_iff b).1 h
  calc b = pack (sign b) (expo b) (frac b) := (pack_fields b).symm
    _ = zero (sign b) := by rw [he, hf, zero]

theorem signedUnits_eq_zero_iff (b : F32) : signedUnits b = 0 ↔ isZero b = true := by
  rw [← Int.natAbs_eq_zero, natAbs_signedUnits, units_eq_zero_iff]

theorem isFinite_of_isZero {b : F32} (h : isZero b = true) : isFinite b = true := by
  rw [isFinite_iff, ((isZero_iff b).1 h).1]
  decide

theorem val_of_isZero {b : F32} (h : isZero b = true) : val b = 0 := by
  rw [val_eq_signedUnits b (isFinite_of_isZero h), (signedUnits_eq_zero_iff b).2 h, Int.cast_zero, zero_mul]

@[simp] theorem isZero_zero (s : Bool) : isZero (zero s) = true := by cases s <;> decide

/-- Multiplying by one changes no finite pattern, signed zeros included (40_numerics.md R107 (e)). -/
theorem one_fmul {t : F32} (h : isFinite t = true) : fmul one t = t := by
  have hone : isFinite one = true ∧ sign one = false ∧ units one = 2 ^ 149 := by decide
  obtain ⟨hf, hs, hu⟩ := hone
  rw [fmul_of_finite hf h, hs, Bool.false_xor, hu, mul_comm, round32_scale _ _ _ (by positivity)]
  cases hz : isZero t with
  | true =>
    rw [(units_eq_zero_iff t).2 hz]
    exact (eq_zero_of_isZero hz).symm
  | false => exact round32_units t _ h hz

/-- Multiplying by `+0.0` gives a zero of the other factor's sign (40_numerics.md R107 (e)). -/
theorem pzero_fmul {t : F32} (h : isFinite t = true) : fmul pzero t = zero (sign t) := by
  have hzero : isFinite pzero = true ∧ sign pzero = false ∧ units pzero = 0 := by decide
  obtain ⟨hf, hs, hu⟩ := hzero
  rw [fmul_of_finite hf h, hs, hu, Bool.false_xor, zero_mul]
  rfl

theorem ofInt_signedUnits {t : F32} (h : signedUnits t ≠ 0) : Exact.ofInt (signedUnits t) = ⟨sign t, units t, 1⟩ := by
  have hsign : decide (signedUnits t < 0) = sign t := by
    cases hs : sign t with
    | true => exact decide_eq_true (lt_of_le_of_ne (signedUnits_nonpos_of_sign hs) h)
    | false => exact decide_eq_false (by rw [signedUnits_of_sign_false hs]; omega)
  rw [Exact.ofInt, hsign, natAbs_signedUnits]

/-- Adding a zero of either sign changes no finite pattern that is not a zero (40_numerics.md R107 (e)). -/
theorem fadd_isZero {t z : F32} (h : isFinite t = true) (ht : isZero t = false) (hz : isZero z = true) :
    fadd t z = t := by
  have hne : signedUnits t ≠ 0 := by
    rw [Ne, signedUnits_eq_zero_iff, ht]
    decide
  rw [fadd_of_finite h (isFinite_of_isZero hz), (signedUnits_eq_zero_iff z).2 hz, add_zero, if_neg hne,
    ofInt_signedUnits hne]
  exact round32_units t false h ht

/-- The sum of two zeros is `-0.0` only if both are (40_numerics.md R94). -/
theorem fadd_zero_zero (a b : Bool) : fadd (zero a) (zero b) = zero (a && b) := by
  cases a <;> cases b <;> decide

end Sys2Proof.F32

namespace Sys2Proof.Machine

theorem entryLegal_finite {b : F32} (h : entryLegal b = true) : F32.isFinite b = true := by
  have hle : b.toNat % 2 ^ 31 ≤ 0x3F800000 := by simpa [entryLegal, BitVec.extractLsb'_toNat] using h
  have hfields := F32.toNat_eq_fields b
  have hfrac := F32.frac_lt b
  rw [F32.isFinite_iff]
  omega

/-- What NEXT returns at phase +0.0 (42_sample_generation.md R150): entry 0, and for a zero entry the sum of two
signed zeros. -/
def sampleAtZero (t0 t1 : F32) : F32 :=
  if F32.isZero t0 = false then t0
  else if t0 = 0x80000000#32 ∧ F32.sign t1 = true then 0x80000000#32 else 0x00000000#32

theorem val_sampleAtZero (t0 t1 : F32) : F32.val (sampleAtZero t0 t1) = F32.val t0 := by
  unfold sampleAtZero
  split
  case isTrue => rfl
  case isFalse h =>
    rw [F32.val_of_isZero (Bool.eq_true_of_not_eq_false h)]
    split <;> exact F32.val_of_isZero (by decide)

theorem interpolate_zero {t0 t1 : F32} (h0 : F32.isFinite t0 = true) (h1 : F32.isFinite t1 = true) :
    interpolate Numerics.ieee F32.pzero t0 t1 = sampleAtZero t0 t1 := by
  have hone : F32.fsub F32.one F32.pzero = F32.one := by decide +kernel
  simp only [interpolate, Numerics.ieee_fadd, Numerics.ieee_fmul, Numerics.ieee_fsub, hone, F32.one_fmul h0,
    F32.pzero_fmul h1, sampleAtZero]
  cases hz : F32.isZero t0 with
  | false => rw [if_pos rfl, F32.fadd_isZero h0 hz (F32.isZero_zero _)]
  | true =>
    rw [F32.eq_zero_of_isZero hz, F32.fadd_zero_zero]
    cases F32.sign t0 <;> cases F32.sign t1 <;> decide

theorem sampleAt_zero (c : Config) :
    sampleAt Numerics.ieee c 0x00000000#32 = sampleAtZero (romRead c 0) (romRead c (1 % c.n)) := by
  have hlow : lowIndex Numerics.ieee c 0x00000000#32 = 0 := Nat.zero_min (c.n - 1)
  have hhigh : highIndex Numerics.ieee c 0x00000000#32 = 1 % c.n := by
    rw [highIndex, hlow, c.succIndex_eq_mod c.n_pos]
  have hweight : weight Numerics.ieee c 0x00000000#32 = F32.pzero := by
    rw [weight, hlow]
    decide
  rw [sampleAt, hlow, hhigh, hweight]
  exact interpolate_zero (entryLegal_finite (romRead_legal c c.n_pos))
    (entryLegal_finite (romRead_legal c (Nat.mod_lt _ c.n_pos)))

theorem advance_zero_zero (c : Config) : advance Numerics.ieee c 0x00000000#32 0x00000000#32 = 0x00000000#32 := by
  have hfadd : F32.fadd 0x00000000#32 0x00000000#32 = 0x00000000#32 := by decide
  have hfrem : F32.frem 0x00000000#32 c.nf = F32.pzero := by
    rw [F32.frem_of_finite (by decide) c.nf_finite c.nf_not_zero, show F32.signedUnits 0x00000000#32 = 0 by decide,
      Int.zero_tmod]
    decide
  rw [advance, Numerics.ieee_fadd, hfadd, Numerics.wrap, Numerics.ieee_frem, hfrem]
  rfl

/-- NEXT in a row where the increment does not move the phase: every sample is the one of that phase. -/
theorem play_next_of_fixed_phase {s : State} (h : advance Numerics.ieee s.inst s.phase s.pinc = s.phase) (k : Nat) :
    (s.play (List.replicate k (Pins.present (encode .next)))).phase = s.phase ∧
    (s.play (List.replicate k (Pins.present (encode .next)))).pinc = s.pinc ∧
    (s.play (List.replicate k (Pins.present (encode .next)))).stream =
      s.stream ++ List.replicate k (sampleAt Numerics.ieee s.inst s.phase) := by
  induction k generalizing s with
  | zero => exact ⟨rfl, rfl, (List.append_nil _).symm⟩
  | succ k ih =>
    have hphase : (s.after .next).phase = s.phase := h
    obtain ⟨hp, hd, hst⟩ := ih (s := s.after .next) (by rw [hphase]; exact h)
    rw [List.replicate_succ, play_cons, apply_present, show decode (encode .next) = .next by decide]
    refine ⟨hp.trans hphase, hd, hst.trans ?_⟩
    rw [hphase, List.replicate_succ]
    simp

/-- Settles O16: +0.0 is a fixed phase of the increment +0.0, and the sample there is entry 0. -/
theorem nextBeforeSetfReturnsEntryZero : Obligations.NextBeforeSetfReturnsEntryZero := by
  intro s k
  obtain ⟨hphase, hpinc, hstream⟩ := play_next_of_fixed_phase (s := s.resetEvent) (advance_zero_zero s.inst) k
  have hstream : _ = s.stream ++ List.replicate k (sampleAtZero (romRead s.inst 0) (romRead s.inst (1 % s.inst.n))) :=
    sampleAt_zero s.inst ▸ hstream
  have hentry : sampleAtZero (romRead Config.default 0) (romRead Config.default (1 % Config.default.n)) =
      0x00000000#32 := by decide
  refine ⟨hphase, hpinc, val_sampleAtZero _ _, hstream, fun hdefault => ?_⟩
  rw [hstream, hdefault, hentry]

/-- SAMPLE is the last of the samples emitted since the stream was `base`, or +0.0 if there is none. -/
def SampleTracks (base : List F32) (s : State) : Prop :=
  ∃ new : List F32, s.stream = base ++ new ∧ s.sample = new.getLast?.getD 0x00000000#32

theorem sampleTracks_resetEvent (s : State) : SampleTracks s.stream s.resetEvent :=
  ⟨[], (List.append_nil _).symm, rfl⟩

theorem SampleTracks.apply {base : List F32} {s : State} (h : SampleTracks base s) {p : Pins} (hr : p.rst = false) :
    SampleTracks base (s.apply p) := by
  obtain ⟨new, hstream, hsample⟩ := h
  rcases apply_cases s p with ⟨hr', -⟩ | ⟨-, -, hp⟩ | ⟨-, -, hp⟩ | ⟨-, f, -, hp⟩
  · rw [hr] at hr'
    cases hr'
  · exact ⟨new, by rw [hp]; exact hstream, by rw [hp]; exact hsample⟩
  · refine ⟨new ++ [sampleAt Numerics.ieee s.inst s.phase], ?_, ?_⟩ <;> rw [hp, after_next]
    · rw [State.emit_stream, State.writeSample_stream, State.writePhase_stream, hstream, List.append_assoc]
    · rw [State.emit_sample, State.writeSample_sample, List.getLast?_concat, Option.getD_some]
  · exact ⟨new, by rw [hp]; exact hstream, by rw [hp]; exact hsample⟩

theorem SampleTracks.play {base : List F32} {s : State} (h : SampleTracks base s) {ps : List Pins}
    (hr : ∀ p ∈ ps, p.rst = false) : SampleTracks base (s.play ps) := by
  induction ps generalizing s with
  | nil => exact h
  | cons p ps ih =>
    obtain ⟨hp, hps⟩ := List.forall_mem_cons.1 hr
    exact ih (h.apply hp) hps

/-- Settles O23: a reset event establishes `SampleTracks`, and every other input keeps it. -/
theorem sampleHoldsTheLastNext : Obligations.SampleHoldsTheLastNext := by
  intro s ps hr
  obtain ⟨new, hstream, hsample⟩ := (sampleTracks_resetEvent s).play hr
  refine ⟨rfl, ?_⟩
  rw [hstream, List.drop_left, hsample]

theorem resetEvent_resetEvent (s : State) : s.resetEvent.resetEvent = s.resetEvent := rfl

/-- Settles O15: `Pins.event` asks for the reset event whatever the word is, and a second one changes nothing. -/
theorem resetEventWinsAndClears : Obligations.ResetEventWinsAndClears := by
  intro s w ps
  constructor
  · rw [apply_reset, State.resetEvent]
  · rw [play_cons, play_cons, apply_reset, apply_reset, resetEvent_resetEvent, play_cons, apply_reset]

end Sys2Proof.Machine
end

section
/-!
PROOFS. The ROM: nothing writes it (20_memory.md R48), and what its default contents are like (R45).
-/

namespace Sys2Proof.Machine

/-- No list of inputs changes the parameters or the ROM (20_memory.md R48). -/
theorem play_inst (s : State) (ps : List Pins) : (s.play ps).inst = s.inst := by
  induction ps generalizing s with
  | nil => rfl
  | cons p ps ih => rw [play_cons, ih, apply_inst]

/-- Settles O12: a word of the ROM is read from the parameters alone, and every run keeps these (`play_inst`). -/
theorem romNeverChanges : Obligations.RomNeverChanges := by
  intro s ps
  have hinst := play_inst s ps
  exact ⟨hinst, fun i _ => by rw [hinst]⟩

/-- The second quarter of the default table is the first one read backwards (20_memory.md R45). -/
theorem romRead_default_mirror : ∀ i ≤ 32, romRead Config.default (32 - i) = romRead Config.default i := by
  decide

/-- The second half of the default table is the first one with the sign flipped (20_memory.md R45). -/
theorem romRead_default_half : ∀ i ≤ 31, 1 ≤ i →
    romRead Config.default (32 + i) = romRead Config.default i ^^^ 0x80000000#32 := by
  decide

/-- The classes of the listed words that legality of an entry leaves open (20_memory.md R45). -/
theorem romRead_default_class : ∀ i < 64,
    romRead Config.default i ≠ 0x80000000#32 ∧ F32.isSubnormal (romRead Config.default i) = false := by
  decide

/-- The smallest magnitude in the default table beside zero is that of entry 1 (20_memory.md R45). -/
theorem romRead_default_magnitude : ∀ i < 64, F32.isZero (romRead Config.default i) = false →
    0x3DC8BD36 ≤ ((romRead Config.default i).extractLsb' 0 31).toNat := by
  decide

/-- Where the real sine is zero the computed entry is +0.0, without any rounding (20_memory.md R43). -/
theorem sineTable_one_two : sineTable 1 = [0#32] ∧ sineTable 2 = [0#32, 0#32] := by
  decide

theorem sineTable_three : sineTable 3 = [0#32, 0x3F5DB3D7#32, 0xBF5DB3D7#32] := by
  decide

theorem sineTable_four : sineTable 4 = [0#32, 0x3F800000#32, 0#32, 0xBF800000#32] := by
  decide

theorem sineTable_eight : sineTable 8 =
    [0#32, 0x3F3504F3#32, 0x3F800000#32, 0x3F3504F3#32, 0#32, 0xBF3504F3#32, 0xBF800000#32, 0xBF3504F3#32] := by
  decide

/-- Settles O53: the symmetries and classes of the listed words, finiteness from the legality of every entry
(`romRead_legal`), and the evaluated tables of the other lengths. -/
theorem defaultTableProperties : Obligations.DefaultTableProperties := by
  have hclass : ∀ i < 64, romRead Config.default i ≠ 0x80000000#32 ∧
      F32.isSubnormal (romRead Config.default i) = false ∧ F32.isFinite (romRead Config.default i) = true ∧
      (F32.isZero (romRead Config.default i) = false →
        0x3DC8BD36 ≤ ((romRead Config.default i).extractLsb' 0 31).toNat) := by
    intro i hi
    obtain ⟨hnegZero, hsubnormal⟩ := romRead_default_class i hi
    have hfinite := entryLegal_finite (romRead_legal Config.default hi)
    exact ⟨hnegZero, hsubnormal, hfinite, romRead_default_magnitude i hi⟩
  obtain ⟨hone, htwo⟩ := sineTable_one_two
  exact ⟨rfl, rfl, rfl, rfl, romRead_default_mirror, fun i hlo hhi => romRead_default_half i hhi hlo, hclass,
    hone, htwo, sineTable_three, sineTable_four, sineTable_eight⟩

end Sys2Proof.Machine
end

section
/-!
PROOFS. The command word (30_encoding.md R70, R73, R78): a word is its three fields, decoding and canonicity row by row,
and the two compositions of the decoder with the encoder.
-/

namespace Sys2Proof

/-- A command word is `cmd_valid`, `cmd_op`, `cmd_data` from the high bit down (30_encoding.md R70). -/
theorem CmdWord.toNat_eq_fields (w : CmdWord) :
    w.toNat = (CmdWord.valid w).toNat * 2 ^ 33 + (CmdWord.op w).toNat * 2 ^ 32 + (CmdWord.data w).toNat := by
  have hlt := w.isLt
  have hvalid : (CmdWord.valid w).toNat = w.toNat / 2 ^ 33 % 2 := Nat.toNat_testBit _ _
  have hop : (CmdWord.op w).toNat = w.toNat / 2 ^ 32 % 2 := Nat.toNat_testBit _ _
  have hdata : (CmdWord.data w).toNat = w.toNat % 2 ^ 32 := by
    simp [CmdWord.data, BitVec.extractLsb'_toNat]
  omega

/-- What a word decodes to and when it is canonical, one case per row of the opcode map (30_encoding.md R73, R74). -/
theorem decode_cases (w : CmdWord) :
    (CmdWord.valid w = false ∧ decode w = .idle ∧ (canonical w = true ↔ w = encode .idle)) ∨
    (CmdWord.valid w = true ∧ CmdWord.op w = false ∧ decode w = .next ∧
      (canonical w = true ↔ CmdWord.data w = 0#32)) ∨
    (CmdWord.valid w = true ∧ CmdWord.op w = true ∧ decode w = .setf (CmdWord.data w) ∧ canonical w = true) := by
  unfold decode canonical
  cases hvalid : CmdWord.valid w with
  | false => exact .inl ⟨rfl, rfl, beq_iff_eq⟩
  | true =>
    cases hop : CmdWord.op w with
    | false => exact .inr (.inl ⟨rfl, rfl, rfl, beq_iff_eq⟩)
    | true => exact .inr (.inr ⟨rfl, rfl, rfl, rfl⟩)

/-- The words of the row SETF, each with its operand. -/
theorem decode_eq_setf_iff (w : CmdWord) (f : F32) : decode w = .setf f ↔ w.toNat = 0x300000000 + f.toNat := by
  have hf := f.isLt
  have hdata := (CmdWord.data w).isLt
  have hw := CmdWord.toNat_eq_fields w
  have hop_le := Bool.toNat_le (CmdWord.op w)
  rcases decode_cases w with ⟨hvalid, hdec, -⟩ | ⟨hvalid, hop, hdec, -⟩ | ⟨hvalid, hop, hdec, -⟩
  · simp only [hvalid, Bool.toNat_false] at hw
    simp only [hdec, reduceCtorEq, false_iff]
    omega
  · simp only [hvalid, hop, Bool.toNat_true, Bool.toNat_false] at hw
    simp only [hdec, reduceCtorEq, false_iff]
    omega
  · simp only [hvalid, hop, Bool.toNat_true] at hw
    simp only [hdec, Instr.setf.injEq, ← BitVec.toNat_inj]
    omega

/-- Decoding undoes encoding (30_encoding.md R78). -/
@[simp] theorem decode_encode (i : Instr) : decode (encode i) = i := by
  cases i with
  | idle => decide
  | next => decide
  | setf f => exact (decode_eq_setf_iff _ f).2 (Laws.encode_setf_toNat f)

@[simp] theorem canonical_encode (i : Instr) : canonical (encode i) = true := by
  cases i with
  | idle => exact Laws.EncodeCanonical.idle
  | next => exact Laws.EncodeCanonical.next
  | setf f => exact Laws.EncodeCanonical.setf f

/-- Encoding writes back a canonical word: the bits that decoding forgets are its zeros (30_encoding.md R78). -/
theorem encode_decode_of_canonical {w : CmdWord} (h : canonical w = true) : encode (decode w) = w := by
  rcases decode_cases w with ⟨-, hdec, hcan⟩ | ⟨hvalid, hop, hdec, hcan⟩ | ⟨-, -, hdec, -⟩
  · rw [hdec, ← hcan.1 h]
  · have hw := CmdWord.toNat_eq_fields w
    rw [hvalid, hop, hcan.1 h] at hw
    rw [hdec]
    exact BitVec.eq_of_toNat_eq hw.symm
  · rw [hdec]
    apply BitVec.eq_of_toNat_eq
    rw [Laws.encode_setf_toNat, (decode_eq_setf_iff w _).1 hdec]

/-- A word is rewritten to itself exactly when it is canonical: every encoded word is (30_encoding.md R78). -/
theorem encode_decode_eq_self_iff (w : CmdWord) : encode (decode w) = w ↔ canonical w = true :=
  ⟨fun h => h ▸ canonical_encode (decode w), encode_decode_of_canonical⟩

/-- Settles O1: the two compositions are `decode_encode` and `encode_decode_eq_self_iff`. -/
theorem decodeInvertsEncode : Obligations.DecodeInvertsEncode :=
  ⟨rfl, rfl, Laws.encode_setf_toNat, decode_encode, encode_decode_eq_self_iff⟩

end Sys2Proof
end

section
/-!
PROOFS. Correct rounding (40_numerics.md R92): the integer that rounding chooses is the nearest one, no pattern of
another binade is nearer, overflow begins at `2^128 - 2^103`, and `round32` therefore answers what `RoundsTo` asks for.
-/

namespace Sys2Proof.F32

/-! Values through sign and magnitude -/

theorem signedUnits_eq_mul (b : F32) : signedUnits b = (-1) ^ (sign b).toNat * (units b : ℤ) := by
  unfold signedUnits
  cases sign b <;> simp

theorem val_eq_mul {b : F32} (h : isFinite b = true) :
    val b = (-1) ^ (sign b).toNat * (units b : ℚ) * (2 : ℚ) ^ (-149 : ℤ) := by
  rw [val_eq_signedUnits b h, signedUnits_eq_mul]
  push_cast
  rfl

theorem abs_val {b : F32} (h : isFinite b = true) : |val b| = units b * (2 : ℚ) ^ (-149 : ℤ) := by
  have hpos : (0 : ℚ) ≤ units b * 2 ^ (-149 : ℤ) := by positivity
  rw [val_eq_mul h, mul_assoc, abs_mul, abs_of_nonneg hpos]
  cases sign b <;> simp

theorem val_eq_zero_iff {b : F32} (h : isFinite b = true) : val b = 0 ↔ isZero b = true := by
  rw [← abs_eq_zero, abs_val h, ← units_eq_zero_iff]
  simp

theorem signedUnits_neg_iff {b : F32} (hz : isZero b = false) : signedUnits b < 0 ↔ sign b = true := by
  cases hs : sign b with
  | false => simp [signedUnits_of_sign_false hs]
  | true =>
    have hne : signedUnits b ≠ 0 := by
      rw [Ne, signedUnits_eq_zero_iff, hz]
      decide
    simpa using lt_of_le_of_ne (signedUnits_nonpos_of_sign hs) hne

theorem val_neg_iff {b : F32} (h : isFinite b = true) (hz : isZero b = false) : val b < 0 ↔ sign b = true := by
  rw [val_eq_signedUnits b h, ← not_le, mul_nonneg_iff_of_pos_right (by positivity), not_le, Int.cast_lt_zero,
    signedUnits_neg_iff hz]

/-- Distances to an exact value, in units: seen from its sign, `b` is a whole number of units. -/
theorem abs_val_sub (x : Exact) {b : F32} (h : isFinite b = true) :
    |val b - x.val| =
      |(((-1) ^ x.neg.toNat * signedUnits b : ℤ) : ℚ) - (x.num : ℚ) / x.den| * (2 : ℚ) ^ (-149 : ℤ) := by
  have hpos : (0 : ℚ) < 2 ^ (-149 : ℤ) := by positivity
  rw [val_eq_signedUnits b h, Exact.val, ← sub_mul, abs_mul, abs_of_pos hpos]
  congr 1
  cases x.neg
  · simp
  · rw [← abs_neg]
    congr 1
    simp only [Bool.toNat_true, pow_one, neg_one_mul]
    push_cast
    ring

theorem abs_exact_val (x : Exact) : |x.val| = (x.num : ℚ) / x.den * (2 : ℚ) ^ (-149 : ℤ) := by
  have hpos : (0 : ℚ) ≤ (x.num : ℚ) / x.den * 2 ^ (-149 : ℤ) := by positivity
  rw [Exact.val, mul_assoc, abs_mul, abs_of_nonneg hpos]
  cases x.neg <;> simp

theorem exact_val_eq_zero_iff {x : Exact} (hd : 0 < x.den) : x.val = 0 ↔ x.num = 0 := by
  rw [← abs_eq_zero, abs_exact_val]
  simp [hd.ne']

theorem exact_val_neg_iff {x : Exact} (hd : 0 < x.den) (h0 : x.num ≠ 0) : x.val < 0 ↔ x.neg = true := by
  have hpos : (0 : ℚ) < (x.num : ℚ) / x.den * 2 ^ (-149 : ℤ) := by positivity
  rw [Exact.val, mul_assoc]
  cases x.neg
  · simpa using hpos.le
  · simpa using hpos

/-! The nearest integer and the nearest pattern -/

/-- `nearestEven` is at most one half away, and even where exactly one half away. -/
theorem abs_nearestEven_sub_le (num : Nat) {den : Nat} (hd : 0 < den) :
    |(nearestEven num den : ℚ) - num / den| ≤ 1 / 2 ∧
    (|(nearestEven num den : ℚ) - num / den| = 1 / 2 → nearestEven num den % 2 = 0) := by
  obtain ⟨hle, hge, htie⟩ := nearestEven_spec num den hd
  have hd' : (0 : ℚ) < den := by exact_mod_cast hd
  have hdist : (nearestEven num den : ℚ) - num / den = (nearestEven num den * den - num) / den := by field_simp
  have hle' : 2 * ((nearestEven num den : ℚ) * den) ≤ 2 * num + den := by exact_mod_cast hle
  have hge' : (2 * num : ℚ) ≤ 2 * (nearestEven num den * den) + den := by exact_mod_cast hge
  rw [hdist, abs_div, abs_of_pos hd', div_le_iff₀ hd', div_eq_iff hd'.ne']
  refine ⟨abs_le.2 ⟨by linarith, by linarith⟩, fun h => htie ?_⟩
  rcases eq_or_eq_neg_of_abs_eq h with h | h
  · exact .inr (by exact_mod_cast (by linarith : (2 * num + den : ℚ) = 2 * (nearestEven num den * den)))
  · exact .inl (by exact_mod_cast (by linarith : (2 * num : ℚ) = 2 * (nearestEven num den * den) + den))

/-- No integer is nearer, and where another one is as near the even one is chosen. -/
theorem nearestEven_nearest (num : Nat) {den : Nat} (hd : 0 < den) (j : ℤ) :
    |(nearestEven num den : ℚ) - num / den| ≤ |(j : ℚ) - num / den| ∧
    (|(j : ℚ) - num / den| = |(nearestEven num den : ℚ) - num / den| →
      j = nearestEven num den ∨ nearestEven num den % 2 = 0) := by
  obtain ⟨hhalf, htie⟩ := abs_nearestEven_sub_le num hd
  by_cases hj : j = nearestEven num den
  · subst hj
    exact ⟨le_of_eq (by norm_cast), fun _ => .inl rfl⟩
  · have hone : (1 : ℚ) ≤ |(j : ℚ) - nearestEven num den| := by
      exact_mod_cast Int.one_le_abs (sub_ne_zero.2 hj)
    have htri := abs_sub_le (j : ℚ) (num / den) (nearestEven num den)
    rw [abs_sub_comm ((num : ℚ) / den)] at htri
    exact ⟨by linarith, fun h => .inr (htie (by linarith))⟩

/-- A pattern is a multiple of the spacing `2 ^ t`, or it lies below the binades of that spacing. -/
theorem units_multiple_or_below (b : F32) (t : Nat) : 2 ^ t ∣ units b ∨ 0 < t ∧ units b < 2 ^ 23 * 2 ^ t := by
  obtain ⟨hdvd, hlt⟩ := units_multiple b
  rcases Nat.lt_or_ge (expo b - 1) t with ht | ht
  · refine .inr ⟨by omega, hlt.trans_le ?_⟩
    calc 2 ^ 24 * 2 ^ (expo b - 1)
      _ = 2 ^ 23 * 2 ^ (expo b - 1 + 1) := by ring
      _ ≤ 2 ^ 23 * 2 ^ t := Nat.mul_le_mul_left _ (Nat.pow_le_pow_right (by norm_num) ht)
  · exact .inl ((pow_dvd_pow 2 ht).trans hdvd)

/-- Distances of multiples of `2 ^ t`, measured in units and in that spacing. -/
theorem abs_mul_two_pow_sub (num t : Nat) {den : Nat} (hd : 0 < den) (j : ℤ) :
    |((j * 2 ^ t : ℤ) : ℚ) - num / den| = |(j : ℚ) - num / (den * 2 ^ t : ℕ)| * 2 ^ t := by
  have hpow : (0 : ℚ) < 2 ^ t := by positivity
  calc |((j * 2 ^ t : ℤ) : ℚ) - num / den|
    _ = |((j : ℚ) - num / (den * 2 ^ t : ℕ)) * 2 ^ t| := by
      congr 1
      push_cast
      field_simp
    _ = |(j : ℚ) - num / (den * 2 ^ t : ℕ)| * 2 ^ t := by rw [abs_mul, abs_of_pos hpow]

/-- Among the multiples of `2 ^ t` none is nearer than the one chosen. -/
theorem nearest_multiple (num t : Nat) {den : Nat} (hd : 0 < den) (j : ℤ) :
    |((nearestEven num (den * 2 ^ t) * 2 ^ t : ℤ) : ℚ) - num / den| ≤ |((j * 2 ^ t : ℤ) : ℚ) - num / den| ∧
    (|((j * 2 ^ t : ℤ) : ℚ) - num / den| = |((nearestEven num (den * 2 ^ t) * 2 ^ t : ℤ) : ℚ) - num / den| →
      j = nearestEven num (den * 2 ^ t) ∨ nearestEven num (den * 2 ^ t) % 2 = 0) := by
  have hpow : (0 : ℚ) < 2 ^ t := by positivity
  rw [abs_mul_two_pow_sub num t hd, abs_mul_two_pow_sub num t hd, mul_le_mul_iff_left₀ hpow, mul_left_inj' hpow.ne']
  exact nearestEven_nearest num (by positivity) j

/-- What lies below the binades of the spacing `2 ^ t` is farther away than the multiple chosen: their lower edge
`2 ^ 23 * 2 ^ t` is between. -/
theorem nearest_multiple_lt_of_below {num den t : Nat} {z : ℤ} (hd : 0 < den) (hlo : 2 ^ 23 * (den * 2 ^ t) ≤ num)
    (hz : z < 2 ^ 23 * 2 ^ t) :
    |((nearestEven num (den * 2 ^ t) * 2 ^ t : ℤ) : ℚ) - num / den| < |(z : ℚ) - num / den| := by
  have hedge : ((2 ^ 23 * 2 ^ t : ℤ) : ℚ) ≤ num / den := by
    rw [le_div_iff₀ (by exact_mod_cast hd)]
    exact_mod_cast (show 2 ^ 23 * 2 ^ t * den ≤ num by linarith)
  have hbelow : (z : ℚ) < (2 ^ 23 * 2 ^ t : ℤ) := Int.cast_lt.2 hz
  calc |((nearestEven num (den * 2 ^ t) * 2 ^ t : ℤ) : ℚ) - num / den|
    _ ≤ |((2 ^ 23 * 2 ^ t : ℤ) : ℚ) - num / den| := (nearest_multiple num t hd (2 ^ 23)).1
    _ = num / den - (2 ^ 23 * 2 ^ t : ℤ) := by rw [abs_of_nonpos (sub_nonpos.2 hedge), neg_sub]
    _ < num / den - z := sub_lt_sub_left hbelow _
    _ = |(z : ℚ) - num / den| := by
      rw [abs_of_nonpos (sub_nonpos.2 (hbelow.le.trans hedge)), neg_sub]

/-- No pattern, of either sign, is nearer to `num / den` units than `roundedUnits` is; where one is as near, the
significand chosen is even (40_numerics.md R92). -/
theorem roundedUnits_nearest (num : Nat) {den : Nat} (hd : 0 < den) {b : F32} {z : ℤ} (hz : z.natAbs = units b) :
    |(roundedUnits num den : ℚ) - num / den| ≤ |(z : ℚ) - num / den| ∧
    (|(z : ℚ) - num / den| = |(roundedUnits num den : ℚ) - num / den| →
      z = roundedUnits num den ∨ nearestEven num (den * 2 ^ binade num den) % 2 = 0) := by
  have hround : ((roundedUnits num den : ℕ) : ℤ) =
      nearestEven num (den * 2 ^ binade num den) * 2 ^ binade num den := by
    rw [roundedUnits, Nat.cast_mul, Nat.cast_pow, Nat.cast_ofNat]
  rw [← Int.cast_natCast (roundedUnits num den), hround]
  rcases units_multiple_or_below b (binade num den) with hdvd | ⟨ht, hlt⟩
  · obtain ⟨j, rfl⟩ : ∃ j : ℤ, z = j * 2 ^ binade num den := by
      rw [← hz, ← Int.natCast_dvd] at hdvd
      exact_mod_cast exists_eq_mul_left_of_dvd hdvd
    obtain ⟨hle, htie⟩ := nearest_multiple num (binade num den) hd j
    exact ⟨hle, fun h => (htie h).imp_left fun hj => by rw [hj]⟩
  · have hzlt : z < 2 ^ 23 * 2 ^ binade num den := by
      have hcast : (z.natAbs : ℤ) < 2 ^ 23 * 2 ^ binade num den := by exact_mod_cast hz ▸ hlt
      exact Int.le_natAbs.trans_lt hcast
    have hfar := nearest_multiple_lt_of_below hd (le_of_binade_pos hd ht) hzlt
    exact ⟨hfar.le, fun h => absurd h hfar.ne'⟩

/-! Overflow and the last bit -/

/-- Halfway above an odd integer, the next one is chosen. -/
theorem lt_nearestEven_of_odd {num den k : Nat} (hd : 0 < den) (hodd : k % 2 = 1) (h : (2 * k + 1) * den ≤ 2 * num) :
    k < nearestEven num den := by
  obtain ⟨-, hge, htie⟩ := nearestEven_spec num den hd
  generalize nearestEven num den = m at *
  rcases Nat.lt_trichotomy m k with hlt | rfl | hlt
  · have : (m + 1) * den ≤ k * den := Nat.mul_le_mul_right _ hlt
    linarith
  · have := htie (.inl (by linarith))
    omega
  · exact hlt

/-- From `2^128 - 2^103` on, half a spacing above the largest finite value, rounding overflows (40_numerics.md R92). -/
theorem le_roundedUnits {num den : Nat} (hd : 0 < den) (h : (2 ^ 25 - 1) * (den * 2 ^ 253) ≤ 2 * num) :
    2 ^ 24 * 2 ^ 253 ≤ roundedUnits num den := by
  obtain ⟨-, hlo⟩ := significand_bounds num hd
  unfold roundedUnits
  rcases Nat.lt_trichotomy (binade num den) 253 with ht | ht | ht
  · exfalso
    have hlt := lt_of_binade num hd
    have hstep : 2 * (den * 2 ^ binade num den) ≤ den * 2 ^ 253 := by
      rw [mul_left_comm, ← pow_succ']
      exact Nat.mul_le_mul_left _ (Nat.pow_le_pow_right (by norm_num) ht)
    have hpos : 0 < den * 2 ^ 253 := by positivity
    generalize den * 2 ^ 253 = d at *
    generalize den * 2 ^ binade num den = d' at *
    omega
  · rw [ht]
    exact Nat.mul_le_mul_right _ (lt_nearestEven_of_odd (k := 2 ^ 24 - 1) (by positivity) (by norm_num) h)
  · have hm := hlo.resolve_left (by omega)
    calc 2 ^ 24 * 2 ^ 253
      _ = 2 ^ 23 * 2 ^ 254 := by norm_num
      _ ≤ _ := Nat.mul_le_mul hm (Nat.pow_le_pow_right (by norm_num) ht)

theorem assemble_of_overflow (s : Bool) {m t : Nat} (hm : m ≤ 2 ^ 24) (h : 2 ^ 24 * 2 ^ 253 ≤ m * 2 ^ t) :
    assemble s m t = inf s := by
  have hfit {m' : Nat} (hm' : m' < 2 ^ 24) (ht : t ≤ 253) : m' * 2 ^ t < 2 ^ 24 * 2 ^ 253 :=
    Nat.mul_lt_mul_of_lt_of_le hm' (Nat.pow_le_pow_right (by norm_num) ht) (by norm_num)
  rcases assemble_cases s m t hm with ⟨hinf, -⟩ | ⟨ht, hlt, -⟩ | ⟨ht, -, hlt, -⟩ | ⟨ht, rfl, -⟩
  · exact hinf
  · exact absurd h (hfit (by omega) ht).not_ge
  · exact absurd h (hfit hlt ht).not_ge
  · exact absurd (Nat.le_of_mul_le_mul_left h (by norm_num)) (Nat.pow_lt_pow_right (by norm_num) ht).not_ge

/-- Rounding answers an infinity exactly from `2^128 - 2^103` on. -/
theorem isInf_round32_iff {x : Exact} (s0 : Bool) (hd : 0 < x.den) (h0 : x.num ≠ 0) :
    isInf (round32 x s0) = true ↔ (2 ^ 25 - 1) * (x.den * 2 ^ 253) ≤ 2 * x.num := by
  constructor
  · intro hinf
    by_contra hlt
    have := (round32_of_fits s0 hd (roundedUnits_lt hd (not_le.1 hlt))).1
    rw [isInf_of_finite this] at hinf
    cases hinf
  · intro h
    have : round32 x s0 = inf x.neg := by
      rw [round32, if_neg h0]
      exact assemble_of_overflow _ (significand_bounds x.num hd).1 (le_roundedUnits hd h)
    rw [this]
    cases x.neg <;> decide

theorem overflow_bound_iff {x : Exact} (hd : 0 < x.den) :
    (2 : ℚ) ^ 128 - 2 ^ 103 ≤ |x.val| ↔ (2 ^ 25 - 1) * (x.den * 2 ^ 253) ≤ 2 * x.num := by
  have hd' : (0 : ℚ) < x.den := by exact_mod_cast hd
  have hunits : (2 : ℚ) ^ 128 - 2 ^ 103 = (2 ^ 25 - 1) * 2 ^ 253 / 2 * 2 ^ (-149 : ℤ) := by norm_num
  rw [abs_exact_val, hunits, mul_le_mul_iff_left₀ (by positivity), le_div_iff₀ hd', ← Nat.cast_le (α := ℚ)]
  push_cast
  constructor <;> intro h <;> linarith

theorem getLsbD_zero_eq_false_iff (b : F32) : b.getLsbD 0 = false ↔ frac b % 2 = 0 := by
  have h := toNat_eq_fields b
  rw [BitVec.getLsbD, Nat.testBit_zero, decide_eq_false_iff_not]
  omega

/-- An even significand gives an even pattern. -/
theorem assemble_even (s : Bool) {m t : Nat} (hm : m ≤ 2 ^ 24) (heven : m % 2 = 0) :
    (assemble s m t).getLsbD 0 = false := by
  rw [getLsbD_zero_eq_false_iff]
  rcases assemble_cases s m t hm with ⟨h, -⟩ | ⟨-, -, h⟩ | ⟨-, hlo, -, h⟩ | ⟨-, -, h⟩ <;> rw [h]
  · simp [inf]
  all_goals
    rw [frac_pack]
    omega

/-! What `round32` answers -/

theorem round32_of_num_zero {x : Exact} (s0 : Bool) (h : x.num = 0) : round32 x s0 = zero s0 := if_pos h

theorem isNaN_round32 (x : Exact) (s0 : Bool) (hd : 0 < x.den) : isNaN (round32 x s0) = false := by
  by_cases h0 : x.num = 0
  · rw [round32_of_num_zero s0 h0]
    cases s0 <;> decide
  by_cases h : (2 ^ 25 - 1) * (x.den * 2 ^ 253) ≤ 2 * x.num
  · have hinf := (isInf_round32_iff s0 hd h0).2 h
    simp only [isInf, Bool.and_eq_true, beq_iff_eq] at hinf
    simp [isNaN, hinf.2]
  · exact isNaN_of_finite (round32_of_fits s0 hd (roundedUnits_lt hd (not_le.1 h))).1

/-- A finite answer is `roundedUnits` with the sign of the value. -/
theorem signedUnits_round32 {x : Exact} (s0 : Bool) (hd : 0 < x.den) (h0 : x.num ≠ 0)
    (hf : isFinite (round32 x s0) = true) :
    (-1) ^ x.neg.toNat * signedUnits (round32 x s0) = roundedUnits x.num x.den := by
  have hfits : 2 * x.num < (2 ^ 25 - 1) * (x.den * 2 ^ 253) := by
    rw [← not_le, ← isInf_round32_iff s0 hd h0, isInf_of_finite hf]
    decide
  rw [signedUnits_eq_mul, (round32_of_fits s0 hd (roundedUnits_lt hd hfits)).2, sign_round32, if_neg h0]
  cases x.neg <;> simp

/-- No finite pattern beats a finite answer, and the answer is even where another one is as near. -/
theorem round32_nearest {x : Exact} (s0 : Bool) (hd : 0 < x.den) (h0 : x.num ≠ 0)
    (hf : isFinite (round32 x s0) = true) {b : F32} (hb : isFinite b = true) :
    |val (round32 x s0) - x.val| ≤ |val b - x.val| ∧
    (|val b - x.val| = |val (round32 x s0) - x.val| →
      val b = val (round32 x s0) ∨ (round32 x s0).getLsbD 0 = false) := by
  have hpos : (0 : ℚ) < 2 ^ (-149 : ℤ) := by positivity
  have hr := signedUnits_round32 s0 hd h0 hf
  have hz : ((-1) ^ x.neg.toNat * signedUnits b).natAbs = units b := by
    rw [Int.natAbs_mul, natAbs_signedUnits]
    cases x.neg <;> simp
  obtain ⟨hle, htie⟩ := roundedUnits_nearest x.num hd hz
  rw [abs_val_sub x hf, abs_val_sub x hb, hr, mul_le_mul_iff_left₀ hpos, mul_left_inj' hpos.ne']
  refine ⟨hle, fun h => (htie h).imp (fun heq => ?_) fun heven => ?_⟩
  · have : signedUnits b = signedUnits (round32 x s0) :=
      mul_left_cancel₀ (pow_ne_zero _ (by norm_num)) (heq.trans hr.symm)
    rw [val_eq_signedUnits b hb, val_eq_signedUnits _ hf, this]
  · rw [round32, if_neg h0]
    exact assemble_even _ (significand_bounds x.num hd).1 heven

/-- A zero is correctly rounded by a zero of either sign. -/
theorem roundsTo_zero (s : Bool) : RoundsTo 0 (zero s) := by
  have hval : val (zero s) = 0 := val_of_isZero (isZero_zero s)
  have hf : isFinite (zero s) = true := isFinite_of_isZero (isZero_zero s)
  refine ⟨isNaN_of_finite hf, ?_, fun _ => isZero_zero s, fun h => absurd rfl h, fun _ b _ => ?_⟩
  · rw [isInf_of_finite hf]
    norm_num
  · rw [hval, sub_zero, sub_zero, abs_zero, abs_eq_zero]
    exact ⟨abs_nonneg _, .inl⟩

/-- `round32` is the correct rounding of every exact value it is given (40_numerics.md R92). -/
theorem round32_roundsTo {x : Exact} (s0 : Bool) (hd : 0 < x.den) : RoundsTo x.val (round32 x s0) := by
  by_cases h0 : x.num = 0
  · rw [(exact_val_eq_zero_iff hd).2 h0, round32_of_num_zero s0 h0]
    exact roundsTo_zero s0
  · have hval : x.val ≠ 0 := mt (exact_val_eq_zero_iff hd).1 h0
    refine ⟨isNaN_round32 x s0 hd, ?_, fun h => absurd h hval, fun _ => ?_, fun hf b => round32_nearest s0 hd h0 hf⟩
    · rw [isInf_round32_iff s0 hd h0, overflow_bound_iff hd]
    · rw [sign_round32, if_neg h0, Bool.eq_iff_iff, decide_eq_true_eq, exact_val_neg_iff hd h0]

/-- A magnitude of at most half the smallest subnormal rounds to a zero of its sign: the tie goes to the even 0
(40_numerics.md R92). -/
theorem round32_underflow {x : Exact} (s0 : Bool) (hd : 0 < x.den) (h0 : x.num ≠ 0) (h : 2 * x.num ≤ x.den) :
    round32 x s0 = zero x.neg := by
  have hb : binade x.num x.den = 0 := by
    rw [binade, Nat.div_eq_of_lt (by omega), Nat.log2_zero]
  have hm : nearestEven x.num x.den = 0 := by
    rw [nearestEven, Nat.div_eq_of_lt (by omega), Nat.mod_eq_of_lt (by omega)]
    split_ifs <;> omega
  rw [round32, if_neg h0]
  simp only [hb, pow_zero, mul_one, hm]
  exact assemble_subnormal _ (by norm_num) (by norm_num)

theorem underflow_bound_iff {x : Exact} (hd : 0 < x.den) :
    |x.val| ≤ (2 : ℚ) ^ (-150 : ℤ) ↔ 2 * x.num ≤ x.den := by
  have hd' : (0 : ℚ) < x.den := by exact_mod_cast hd
  have hunits : (2 : ℚ) ^ (-150 : ℤ) = 1 / 2 * 2 ^ (-149 : ℤ) := by norm_num
  rw [abs_exact_val, hunits, mul_le_mul_iff_left₀ (by positivity), div_le_iff₀ hd', ← Nat.cast_le (α := ℚ)]
  push_cast
  constructor <;> intro h <;> linarith

/-- A value that has a pattern is that pattern's sign and units. -/
theorem fields_of_val_eq {x : Exact} {b : F32} (hd : 0 < x.den) (hb : isFinite b = true) (h0 : x.num ≠ 0)
    (h : val b = x.val) : sign b = x.neg ∧ units b * x.den = x.num := by
  have hd' : (0 : ℚ) < x.den := by exact_mod_cast hd
  have hpos : (0 : ℚ) < 2 ^ (-149 : ℤ) := by positivity
  constructor
  · have hz : isZero b = false := by
      rw [← Bool.not_eq_true, ← val_eq_zero_iff hb, h]
      exact mt (exact_val_eq_zero_iff hd).1 h0
    rw [Bool.eq_iff_iff, ← val_neg_iff hb hz, h, exact_val_neg_iff hd h0]
  · have habs : |val b| = |x.val| := by rw [h]
    rw [abs_val hb, abs_exact_val, mul_left_inj' hpos.ne', eq_div_iff hd'.ne'] at habs
    exact_mod_cast habs

/-- A value that has a pattern is returned unchanged (40_numerics.md R92). -/
theorem round32_of_val_eq {x : Exact} {b : F32} (s0 : Bool) (hd : 0 < x.den) (hb : isFinite b = true) (h0 : x.num ≠ 0)
    (h : val b = x.val) : round32 x s0 = b := by
  obtain ⟨hs, hu⟩ := fields_of_val_eq hd hb h0 h
  have hz : isZero b = false := by
    rw [← Bool.not_eq_true, ← units_eq_zero_iff]
    rintro hu0
    rw [hu0, zero_mul] at hu
    exact h0 hu.symm
  calc round32 x s0
    _ = round32 ⟨x.neg, x.num, x.den⟩ s0 := rfl
    _ = round32 ⟨sign b, units b * x.den, x.den⟩ s0 := by rw [hs, hu]
    _ = round32 ⟨sign b, units b, 1⟩ s0 := round32_scale _ _ _ hd
    _ = b := round32_units b s0 hb hz

end Sys2Proof.F32

namespace Sys2Proof

/-- Settles O37, by `round32_roundsTo` and its three consequences. -/
theorem roundingIsNearestEven : Obligations.RoundingIsNearestEven := by
  intro x s0 hd
  exact ⟨F32.round32_roundsTo s0 hd, F32.round32_of_num_zero s0,
    fun h0 h => F32.round32_underflow s0 hd h0 ((F32.underflow_bound_iff hd).1 h),
    fun b hb h0 => F32.round32_of_val_eq s0 hd hb h0⟩

end Sys2Proof
end

section
/-!
PROOFS. Patterns by class, order and sign (40_numerics.md R91), the comparisons (R102), the conversion of an integer
(R99) and the predecessor (R101).
-/

namespace Sys2Proof.F32

/-! Classes -/

/-- Every pattern is in exactly one of the five classes (40_numerics.md R91). -/
theorem count_classes (b : F32) : [isZero b, isSubnormal b, isNormal b, isInf b, isNaN b].count true = 1 := by
  have hlt := expo_lt b
  have hzero : isZero b = (expo b == 0 && frac b == 0) := by
    rw [Bool.eq_iff_iff, isZero_iff]
    simp
  rw [hzero, isSubnormal, isNormal, isInf, isNaN]
  rcases (by omega : expo b = 0 ∨ (1 ≤ expo b ∧ expo b ≤ 254) ∨ expo b = 255) with he | ⟨hlo, hhi⟩ | he
  · cases hf : frac b == 0 <;> simp [bne, hf, he]
  · simp [hlo, hhi, show expo b ≠ 0 by omega, show expo b ≠ 255 by omega]
  · cases hf : frac b == 0 <;> simp [bne, hf, he]

theorem isSubnormal_iff (b : F32) : isSubnormal b = true ↔ expo b = 0 ∧ frac b ≠ 0 := by
  simp [isSubnormal]

theorem isInf_iff (b : F32) : isInf b = true ↔ expo b = 255 ∧ frac b = 0 := by
  simp [isInf]

theorem isFinite_iff_class (b : F32) :
    isFinite b = true ↔ isZero b = true ∨ isSubnormal b = true ∨ isNormal b = true := by
  have hlt := expo_lt b
  rw [isFinite_iff, isZero_iff, isSubnormal_iff, isNormal_iff]
  omega

theorem isNaN_of_isInf {b : F32} (h : isInf b = true) : isNaN b = false := by
  simp [isNaN, ((isInf_iff b).1 h).2]

theorem isFinite_of_isInf {b : F32} (h : isInf b = true) : isFinite b = false := by
  simp [isFinite, ((isInf_iff b).1 h).1]

/-! Extreme values -/

theorem units_le_of_isNormal {b : F32} (h : isNormal b = true) : 2 ^ 23 ≤ units b := by
  rw [units_of_expo_pos ((isNormal_iff b).1 h).1]
  exact Nat.le_mul_of_pos_right _ (by positivity) |>.trans' (by omega)

theorem units_pos_of_isSubnormal {b : F32} (h : isSubnormal b = true) : 1 ≤ units b := by
  obtain ⟨he, hf⟩ := (isSubnormal_iff b).1 h
  rw [units_eq_of_fields, if_pos he]
  omega

theorem val_of_not_finite {b : F32} (h : isFinite b = false) : val b = 0 := by
  rw [val, if_pos (by simpa [isFinite] using h)]

/-- The three values that 40_numerics.md R91 names. -/
theorem val_extremes : val 0x7F7FFFFF#32 = (2 ^ 24 - 1) * 2 ^ 104 ∧ val 0x00800000#32 = (2 : ℚ) ^ (-126 : ℤ) ∧
    val 0x00000001#32 = (2 : ℚ) ^ (-149 : ℤ) := by
  decide +kernel

theorem val_le_largest (b : F32) : val b ≤ (2 ^ 24 - 1) * 2 ^ 104 := by
  cases hf : isFinite b with
  | false =>
    rw [val_of_not_finite hf]
    positivity
  | true =>
    have hunits : (units b : ℚ) ≤ ((2 ^ 24 - 1) * 2 ^ 253 : ℕ) := Nat.cast_le.2 (units_le b hf)
    calc val b
      _ ≤ units b * (2 : ℚ) ^ (-149 : ℤ) := abs_val hf ▸ le_abs_self _
      _ ≤ ((2 ^ 24 - 1) * 2 ^ 253 : ℕ) * 2 ^ (-149 : ℤ) := by gcongr
      _ = (2 ^ 24 - 1) * 2 ^ 104 := by norm_num

theorem le_abs_val {b : F32} {k : Nat} (hf : isFinite b = true) (h : k ≤ units b) :
    k * (2 : ℚ) ^ (-149 : ℤ) ≤ |val b| := by
  rw [abs_val hf]
  gcongr

theorem smallest_normal_le {b : F32} (h : isNormal b = true) : (2 : ℚ) ^ (-126 : ℤ) ≤ |val b| := by
  calc (2 : ℚ) ^ (-126 : ℤ)
    _ = (2 ^ 23 : ℕ) * 2 ^ (-149 : ℤ) := by norm_num
    _ ≤ |val b| := le_abs_val (isFinite_of_isNormal h) (units_le_of_isNormal h)

theorem smallest_subnormal_le {b : F32} (h : isSubnormal b = true) : (2 : ℚ) ^ (-149 : ℤ) ≤ |val b| := by
  simpa using le_abs_val ((isFinite_iff_class b).2 (.inr (.inl h))) (units_pos_of_isSubnormal h)

theorem toNat_lt_iff_val_lt {a b : F32} (ha : isFinite a = true) (hb : isFinite b = true) (hsa : sign a = false)
    (hsb : sign b = false) : a.toNat < b.toNat ↔ val a < val b := by
  rw [val_lt_val_iff ha hb, signedUnits_of_sign_false hsa, signedUnits_of_sign_false hsb, Int.ofNat_lt,
    units_lt_units_iff hsa hsb]

/-! Negation -/

@[simp] theorem sign_neg (b : F32) : sign (neg b) = !sign b := by
  simp [sign, neg]

theorem magnitude_neg (b : F32) : (neg b).extractLsb' 0 31 = b.extractLsb' 0 31 := by
  rw [neg, BitVec.extractLsb'_xor]
  exact BitVec.xor_zero

@[simp] theorem expo_neg (b : F32) : expo (neg b) = expo b := by
  rw [expo, neg, BitVec.extractLsb'_xor]
  exact congrArg BitVec.toNat BitVec.xor_zero

@[simp] theorem frac_neg (b : F32) : frac (neg b) = frac b := by
  rw [frac, neg, BitVec.extractLsb'_xor]
  exact congrArg BitVec.toNat BitVec.xor_zero

@[simp] theorem isFinite_neg (b : F32) : isFinite (neg b) = isFinite b := by
  simp [isFinite]

@[simp] theorem signedUnits_neg (b : F32) : signedUnits (neg b) = -signedUnits b := by
  rw [signedUnits, signedUnits, units_eq_of_fields, units_eq_of_fields, sign_neg, expo_neg, frac_neg]
  cases sign b <;> simp

@[simp] theorem val_neg (b : F32) : val (neg b) = -val b := by
  cases hf : isFinite b with
  | false => rw [val_of_not_finite hf, val_of_not_finite (by simpa using hf), neg_zero]
  | true =>
    rw [val_eq_signedUnits b hf, val_eq_signedUnits _ (by simpa using hf), signedUnits_neg, Int.cast_neg, neg_mul]

theorem val_one : val one = 1 := by
  decide +kernel

/-! Comparisons -/

theorem flt_of_finite {a b : F32} (ha : isFinite a = true) (hb : isFinite b = true) :
    flt a b = decide (val a < val b) := by
  rw [flt, isNaN_of_finite ha, isNaN_of_finite hb, isInf_of_finite ha, isInf_of_finite hb]
  simp [val_lt_val_iff ha hb]

theorem flt_nan {a b : F32} (h : isNaN a = true ∨ isNaN b = true) : flt a b = false := by
  rcases h with h | h <;> simp [flt, h]

theorem feq_nan {a b : F32} (h : isNaN a = true ∨ isNaN b = true) : feq a b = false := by
  rcases h with h | h <;> simp [feq, h]

theorem feq_iff {a b : F32} (ha : isNaN a = false) (hb : isNaN b = false) :
    feq a b = true ↔ (isZero a = true ∧ isZero b = true) ∨ a = b := by
  rw [feq, ha, hb]
  by_cases h : isZero a = true ∧ isZero b = true
  · simp [h]
  · rw [or_iff_right h]
    simp [h]

/-- Against an infinity only its sign counts. -/
theorem flt_inf_right {a b : F32} (ha : isFinite a = true) (hb : isInf b = true) : flt a b = !sign b := by
  simp [flt, isNaN_of_finite ha, isInf_of_finite ha, hb, isNaN_of_isInf hb]

theorem flt_inf_left {a b : F32} (ha : isInf a = true) (hb : isFinite b = true) : flt a b = sign a := by
  simp [flt, isNaN_of_finite hb, isInf_of_finite hb, ha, isNaN_of_isInf ha]

theorem isZero_iff_eq (b : F32) : isZero b = true ↔ b = 0x00000000#32 ∨ b = 0x80000000#32 := by
  constructor
  · intro h
    rw [eq_zero_of_isZero h]
    cases sign b <;> decide
  · rintro (rfl | rfl) <;> decide

/-! Conversion of an integer -/

theorem u2f_zero : u2f 0 = 0x00000000#32 := by decide

theorem u2f_finite_sign_val {k : Nat} (hk : k ≤ 2 ^ 24) :
    isFinite (u2f k) = true ∧ sign (u2f k) = false ∧ val (u2f k) = k := by
  rcases Nat.eq_zero_or_pos k with rfl | h1
  · rw [u2f_zero, val_of_isZero (by decide)]
    exact ⟨by decide, by decide, rfl⟩
  · obtain ⟨hs, hn, -⟩ := u2f_exact h1 hk
    exact ⟨isFinite_of_isNormal hn, hs, val_u2f h1 hk⟩

/-- The values that 40_numerics.md R99 lists. -/
theorem u2f_listed : u2f 1 = 0x3F800000#32 ∧ u2f 3 = 0x40400000#32 ∧ u2f 63 = 0x427C0000#32 ∧
    u2f 64 = 0x42800000#32 ∧ u2f 44100 = 0x472C4400#32 ∧ u2f 48000 = 0x473B8000#32 ∧
    u2f 16777216 = 0x4B800000#32 := by
  decide +kernel

end Sys2Proof.F32

namespace Sys2Proof

/-- Settles O36, class by class. -/
theorem classesAndOrderOfPatterns : Obligations.ClassesAndOrderOfPatterns := by
  obtain ⟨hlargest, hnormal, hsubnormal⟩ := F32.val_extremes
  exact ⟨fun b => ⟨F32.count_classes b, F32.isFinite_iff_class b⟩,
    ⟨hlargest, fun b => hlargest ▸ F32.val_le_largest b⟩,
    ⟨hnormal, fun b h => hnormal ▸ F32.smallest_normal_le h⟩,
    ⟨hsubnormal, fun b h => hsubnormal ▸ F32.smallest_subnormal_le h⟩,
    fun a b => F32.toNat_lt_iff_val_lt, fun b => ⟨F32.sign_neg b, F32.magnitude_neg b, F32.val_neg b⟩,
    rfl, rfl, rfl, F32.val_one, F32.val_of_isZero (by decide), F32.isNaN_cnan⟩

/-- Settles O43: exactness by `u2f_exact`, the arguments of the block by the constraints of a configuration. -/
theorem integerConversionIsExact : Obligations.IntegerConversionIsExact :=
  ⟨fun _ => F32.u2f_finite_sign_val, fun c p => ⟨c.n_legal.2, c.sampleRate_legal.2, F32.f2idx_le c.n p⟩,
    F32.u2f_zero, F32.u2f_listed⟩

/-- Settles O45, by the order of the patterns of sign 0. -/
theorem predecessorIsTheNeighbourBelow : Obligations.PredecessorIsTheNeighbourBelow := by
  intro b hs hn
  obtain ⟨-, hfin, htoNat⟩ := F32.pred_fields hs hn
  exact ⟨by omega, hfin, F32.val_pred_lt hs hn, fun x => F32.val_le_val_pred hs hn⟩

/-- Settles O46, by the class of the operands. -/
theorem comparisonRule : Obligations.ComparisonRule := by
  intro a b
  refine ⟨?_, F32.isZero_iff_eq a, fun h => ⟨F32.flt_nan h, F32.feq_nan h⟩, F32.flt_of_finite, fun h => ?_,
    by decide, by decide, by decide, by decide, F32.feq_iff⟩
  · simp [F32.isNaN, F32.expo, F32.frac]
  · exact ⟨F32.flt_inf_right h (by decide), F32.flt_inf_left (by decide) h, F32.flt_inf_left (by decide) h,
      F32.flt_inf_right h (by decide)⟩

end Sys2Proof
end

section
/-!
PROOFS. The operations by the class of their operands (40_numerics.md R94 to R98): each exact result is the value of the
`Exact` that the operation rounds, so that `round32_roundsTo` speaks of it; and the reduction of a phase sum (R103).
-/

namespace Sys2Proof.F32

theorem nan_or_inf_or_finite (b : F32) : isNaN b = true ∨ isInf b = true ∨ isFinite b = true := by
  cases hf : isFinite b with
  | true => exact .inr (.inr rfl)
  | false =>
    rcases inf_or_nan_of_not_finite hf with ⟨h, -⟩ | ⟨-, h⟩
    · exact .inr (.inl h)
    · exact .inl h

/-- An infinity is its sign. -/
theorem eq_of_isInf {a b : F32} (ha : isInf a = true) (hb : isInf b = true) (hs : sign a = sign b) : a = b := by
  obtain ⟨hea, hfa⟩ := (isInf_iff a).1 ha
  obtain ⟨heb, hfb⟩ := (isInf_iff b).1 hb
  exact eq_of_fields hs (hea.trans heb.symm) (hfa.trans hfb.symm)

/-! Addition and subtraction -/

theorem fadd_of_inf_inf {a b : F32} (ha : isInf a = true) (hb : isInf b = true) :
    fadd a b = if sign a = sign b then a else cnan := by
  simp [fadd, isNaN_of_isInf ha, isNaN_of_isInf hb, ha, hb]

theorem fadd_of_inf_left {a b : F32} (ha : isInf a = true) (hb : isFinite b = true) : fadd a b = a := by
  simp [fadd, isNaN_of_isInf ha, isNaN_of_finite hb, ha, isInf_of_finite hb]

theorem fadd_comm (a b : F32) : fadd a b = fadd b a := by
  rcases nan_or_inf_or_finite a with ha | ha | ha
  · rw [fadd_nan (.inl ha), fadd_nan (.inr ha)]
  all_goals rcases nan_or_inf_or_finite b with hb | hb | hb
  · rw [fadd_nan (.inr hb), fadd_nan (.inl hb)]
  · rw [fadd_of_inf_inf ha hb, fadd_of_inf_inf hb ha]
    split
    case isTrue hs => rw [if_pos hs.symm, eq_of_isInf ha hb hs]
    case isFalse hs => rw [if_neg (Ne.symm hs)]
  · rw [fadd_of_inf_left ha hb, fadd_of_inf_right hb ha (isNaN_of_isInf ha)]
  · rw [fadd_nan (.inr hb), fadd_nan (.inl hb)]
  · rw [fadd_of_inf_left hb ha, fadd_of_inf_right ha hb (isNaN_of_isInf hb)]
  · rw [fadd_of_finite ha hb, fadd_of_finite hb ha, add_comm, Bool.and_comm]

theorem exact_val_ofInt (z : ℤ) : (Exact.ofInt z).val = z * (2 : ℚ) ^ (-149 : ℤ) := by
  rw [Exact.val, Exact.ofInt, Nat.cast_one, div_one]
  rcases lt_or_ge z 0 with h | h
  · simp [h, abs_of_neg (Int.cast_lt_zero.2 h)]
  · simp [h.not_gt, abs_of_nonneg (Int.cast_nonneg h)]

theorem val_add_val {a b : F32} (ha : isFinite a = true) (hb : isFinite b = true) :
    val a + val b = (signedUnits a + signedUnits b : ℤ) * (2 : ℚ) ^ (-149 : ℤ) := by
  rw [val_eq_signedUnits a ha, val_eq_signedUnits b hb, Int.cast_add, add_mul]

theorem val_add_val_eq_zero_iff {a b : F32} (ha : isFinite a = true) (hb : isFinite b = true) :
    val a + val b = 0 ↔ signedUnits a + signedUnits b = 0 := by
  rw [val_add_val ha hb, mul_eq_zero, or_iff_left (by positivity), Int.cast_eq_zero]

/-- An exact zero sum is `-0.0` only of two operands of sign 1 (40_numerics.md R94). -/
theorem fadd_of_sum_zero {a b : F32} (ha : isFinite a = true) (hb : isFinite b = true) (h : val a + val b = 0) :
    fadd a b = zero (sign a && sign b) := by
  rw [fadd_of_finite ha hb, if_pos ((val_add_val_eq_zero_iff ha hb).1 h)]

theorem fadd_roundsTo {a b : F32} (ha : isFinite a = true) (hb : isFinite b = true) (h : val a + val b ≠ 0) :
    RoundsTo (val a + val b) (fadd a b) := by
  rw [fadd_of_finite ha hb, if_neg (mt (val_add_val_eq_zero_iff ha hb).2 h), val_add_val ha hb, ← exact_val_ofInt]
  exact round32_roundsTo false Nat.one_pos

theorem fsub_eq_fadd_neg {a b : F32} (ha : isNaN a = false) (hb : isNaN b = false) : fsub a b = fadd a (neg b) := by
  simp [fsub, ha, hb]

/-- A finite value minus itself is `+0.0` (40_numerics.md R95). -/
theorem fsub_self {a : F32} (h : isFinite a = true) : fsub a a = 0x00000000#32 := by
  have hneg : isFinite (neg a) = true := by rw [isFinite_neg, h]
  rw [fsub_eq_fadd_neg (isNaN_of_finite h) (isNaN_of_finite h), fadd_of_sum_zero h hneg (by simp), sign_neg,
    Bool.and_not_self]
  decide

/-! Multiplication and division -/

theorem neg_one_pow_xor (s t : Bool) : (-1 : ℚ) ^ (xor s t).toNat = (-1) ^ s.toNat * (-1) ^ t.toNat := by
  cases s <;> cases t <;> norm_num

theorem val_mul_val {a b : F32} (ha : isFinite a = true) (hb : isFinite b = true) :
    val a * val b = Exact.val ⟨xor (sign a) (sign b), units a * units b, 2 ^ 149⟩ := by
  have hunit : (2 : ℚ) ^ (-149 : ℤ) = ((2 ^ 149 : ℕ) : ℚ)⁻¹ := by norm_num
  rw [val_eq_mul ha, val_eq_mul hb, Exact.val, neg_one_pow_xor, Nat.cast_mul, div_eq_mul_inv, ← hunit]
  ring

theorem fmul_comm (a b : F32) : fmul a b = fmul b a := by
  rw [fmul, fmul, Bool.or_comm (isNaN a), Bool.xor_comm (sign a), Bool.or_comm (isInf a), Bool.or_comm (isZero a),
    Nat.mul_comm (units a)]

theorem fmul_inf_zero {a b : F32} (ha : isInf a = true) (hb : isZero b = true) : fmul a b = cnan := by
  simp [fmul, ha, hb, isNaN_of_isInf ha]

theorem fmul_inf {a b : F32} (hna : isNaN a = false) (hnb : isNaN b = false) (hza : isZero a = false)
    (hzb : isZero b = false) (h : isInf a = true ∨ isInf b = true) : fmul a b = inf (xor (sign a) (sign b)) := by
  rw [← Bool.or_eq_true] at h
  simp [fmul, hna, hnb, hza, hzb, h]

theorem fmul_of_product_zero {a b : F32} (ha : isFinite a = true) (hb : isFinite b = true) (h : val a * val b = 0) :
    fmul a b = zero (xor (sign a) (sign b)) := by
  rw [val_mul_val ha hb, exact_val_eq_zero_iff (by positivity)] at h
  rw [fmul_of_finite ha hb, round32_of_num_zero _ h]

theorem fmul_roundsTo {a b : F32} (ha : isFinite a = true) (hb : isFinite b = true) :
    RoundsTo (val a * val b) (fmul a b) := by
  rw [fmul_of_finite ha hb, val_mul_val ha hb]
  exact round32_roundsTo _ (by positivity)

theorem val_div_val {a b : F32} (ha : isFinite a = true) (hb : isFinite b = true) :
    val a / val b = Exact.val ⟨xor (sign a) (sign b), units a * 2 ^ 149, units b⟩ := by
  have hsign : ((-1 : ℚ) ^ (sign b).toNat)⁻¹ = (-1) ^ (sign b).toNat := by cases sign b <;> norm_num
  have hunit : ((2 ^ 149 : ℕ) : ℚ) = (2 ^ (-149 : ℤ))⁻¹ := by norm_num
  rw [val_eq_mul ha, val_eq_mul hb, Exact.val, neg_one_pow_xor, div_eq_mul_inv, mul_inv, mul_inv, hsign, Nat.cast_mul,
    hunit]
  ring

theorem fdiv_inf_inf {a b : F32} (ha : isInf a = true) (hb : isInf b = true) : fdiv a b = cnan := by
  simp [fdiv, ha, hb]

theorem fdiv_inf_finite {a b : F32} (ha : isInf a = true) (hb : isFinite b = true) :
    fdiv a b = inf (xor (sign a) (sign b)) := by
  simp [fdiv, ha, isNaN_of_isInf ha, isNaN_of_finite hb, isInf_of_finite hb]

theorem fdiv_finite_inf {a b : F32} (ha : isFinite a = true) (hb : isInf b = true) :
    fdiv a b = zero (xor (sign a) (sign b)) := by
  simp [fdiv, hb, isNaN_of_isInf hb, isNaN_of_finite ha, isInf_of_finite ha]

theorem fdiv_by_zero {a b : F32} (ha : isFinite a = true) (hb : isZero b = true) :
    fdiv a b = if isZero a then cnan else inf (xor (sign a) (sign b)) := by
  have hfb := isFinite_of_isZero hb
  simp [fdiv, hb, isNaN_of_finite ha, isInf_of_finite ha, isNaN_of_finite hfb, isInf_of_finite hfb]

theorem units_pos {b : F32} (h : isZero b = false) : 0 < units b := by
  rw [Nat.pos_iff_ne_zero, Ne, units_eq_zero_iff, h]
  decide

theorem fdiv_of_quotient_zero {a b : F32} (ha : isFinite a = true) (hb : isFinite b = true) (h0 : isZero b = false)
    (h : val a = 0) : fdiv a b = zero (xor (sign a) (sign b)) := by
  have hu : units a = 0 := (units_eq_zero_iff a).2 ((val_eq_zero_iff ha).1 h)
  rw [fdiv_of_finite ha hb h0, round32_of_num_zero _ (by simp [hu])]

theorem fdiv_roundsTo {a b : F32} (ha : isFinite a = true) (hb : isFinite b = true) (h0 : isZero b = false) :
    RoundsTo (val a / val b) (fdiv a b) := by
  rw [fdiv_of_finite ha hb h0, val_div_val ha hb]
  exact round32_roundsTo _ (units_pos h0)

/-! Remainder -/

/-- The truncated quotient of rationals is the machine's truncated quotient of units. -/
theorem truncQ_div (p : ℤ) {q : ℕ} (hq : 0 < q) : truncQ ((p : ℚ) / q) = p.tdiv q := by
  have hq' : (0 : ℚ) < q := by exact_mod_cast hq
  have hnonneg : 0 ≤ (p : ℚ) / q ↔ 0 ≤ p := by rw [le_div_iff₀ hq', zero_mul, Int.cast_nonneg_iff]
  rcases le_or_gt 0 p with hp | hp
  · rw [truncQ, if_pos (hnonneg.2 hp), Rat.floor_intCast_div_natCast, Int.tdiv_eq_ediv_of_nonneg hp]
  · rw [truncQ, if_neg (mt hnonneg.1 hp.not_ge), Rat.ceil_intCast_div_natCast,
      ← Int.tdiv_eq_ediv_of_nonneg (by omega), Int.neg_tdiv, neg_neg]

/-- A remainder has the dividend's sign, a zero remainder included (40_numerics.md R98). -/
theorem sign_frem {a n : F32} (ha : isFinite a = true) (hn : isFinite n = true) (h0 : isZero n = false) :
    sign (frem a n) = sign a := by
  rw [frem_of_finite ha hn h0, sign_round32]
  split
  case isTrue => rfl
  case isFalse hne =>
    have hne : (signedUnits a).tmod (signedUnits n) ≠ 0 := mt Int.natAbs_eq_zero.2 hne
    cases hsa : sign a with
    | false =>
      have := Int.tmod_nonneg (signedUnits n) (a := signedUnits a) (by rw [signedUnits_of_sign_false hsa]; omega)
      exact decide_eq_false (by omega)
    | true =>
      have := Int.tmod_nonneg (signedUnits n) (a := -signedUnits a) (by linarith [signedUnits_nonpos_of_sign hsa])
      rw [Int.neg_tmod] at this
      exact decide_eq_true (by omega)

section Divisor

variable {a n : F32} (ha : isFinite a = true) (hn : isFinite n = true) (hs : sign n = false) (h0 : isZero n = false)
include ha hn hs h0

/-- By a positive finite divisor (40_numerics.md R98). -/
theorem val_frem : val (frem a n) = val a - truncQ (val a / val n) * val n := by
  obtain ⟨hf, hr⟩ := frem_exact ha hn h0
  have hpos : (0 : ℚ) < 2 ^ (-149 : ℤ) := by positivity
  have hvn : val n = (units n : ℚ) * 2 ^ (-149 : ℤ) := by
    rw [val_eq_signedUnits n hn, signedUnits_of_sign_false hs, Int.cast_natCast]
  have hquot : truncQ (val a / val n) = (signedUnits a).tdiv (units n) := by
    rw [val_eq_signedUnits a ha, hvn, mul_div_mul_right _ _ hpos.ne', truncQ_div _ (units_pos h0)]
  rw [hquot, val_eq_signedUnits _ hf, hr, val_eq_signedUnits a ha, hvn, signedUnits_of_sign_false hs, Int.tmod_def]
  push_cast
  ring

theorem abs_val_frem_lt : |val (frem a n)| < val n := by
  obtain ⟨hf, hr⟩ := frem_exact ha hn h0
  have hlt : units (frem a n) < units n := by
    rw [← natAbs_signedUnits, hr, Int.natAbs_tmod, natAbs_signedUnits, natAbs_signedUnits]
    exact Nat.mod_lt _ (units_pos h0)
  rw [abs_val hf, val_eq_signedUnits n hn, signedUnits_of_sign_false hs, Int.cast_natCast]
  gcongr

end Divisor

/-- A finite value of at least 1 is a positive divisor. -/
theorem positive_of_one_le_val {n : F32} (hn : isFinite n = true) (h : 1 ≤ val n) :
    isZero n = false ∧ sign n = false := by
  have h0 : isZero n = false := by
    rw [← Bool.not_eq_true, ← val_eq_zero_iff hn]
    linarith
  refine ⟨h0, ?_⟩
  rw [← Bool.not_eq_true, ← val_neg_iff hn h0]
  linarith

end Sys2Proof.F32

namespace Sys2Proof.Machine

variable {c : Config} {s : F32}

/-- The remainder by `N_f` as the statement of R103 writes it. -/
theorem val_frem_nf (hs : F32.isFinite s = true) :
    F32.val (F32.frem s c.nf) = F32.val s - truncQ (F32.val s / c.n) * c.n := by
  rw [F32.val_frem hs c.nf_finite c.nf_positive_normal.1 c.nf_not_zero, c.val_nf]

/-- The three branches of `wrap` for a finite sum, by the exact remainder (40_numerics.md R103). -/
theorem wrap_of_finite (hs : F32.isFinite s = true) :
    Numerics.ieee.wrap c.nf s =
      if F32.val (F32.frem s c.nf) = 0 then F32.pzero
      else if 0 < F32.val (F32.frem s c.nf) then F32.frem s c.nf
      else if F32.fadd (F32.frem s c.nf) c.nf = c.nf then c.predN else F32.fadd (F32.frem s c.nf) c.nf := by
  obtain ⟨hf, -⟩ := F32.frem_exact hs c.nf_finite c.nf_not_zero
  have hzero := F32.val_eq_zero_iff hf
  rcases Numerics.wrap_cases Numerics.ieee c.nf s with
    ⟨hnan, -⟩ | ⟨-, hz, h⟩ | ⟨-, hz, hsign, h⟩ | ⟨-, hz, hsign, h⟩
  · rw [Numerics.ieee_fisNan, Numerics.ieee_frem, F32.isNaN_of_finite hf] at hnan
    cases hnan
  · rw [h, if_pos (hzero.2 hz)]
  all_goals
    have hne : F32.val (F32.frem s c.nf) ≠ 0 := by
      rw [Ne, hzero, ← Numerics.ieee_frem, ← Numerics.ieee_fisZero, hz]
      decide
    have hneg := F32.val_neg_iff hf hz
    rw [h, if_neg hne]
  · have hpos : 0 < F32.val (F32.frem s c.nf) := by
      refine lt_of_le_of_ne (not_lt.1 fun hlt => ?_) hne.symm
      have := hneg.1 hlt
      rw [← Numerics.ieee_frem, hsign] at this
      cases this
    rw [if_pos hpos, Numerics.ieee_frem]
  · rw [if_neg (hneg.2 hsign).not_gt]
    rfl

theorem raised_remainder_pos (hs : F32.isFinite s = true) :
    0 < F32.val (F32.frem s c.nf) + F32.val c.nf := by
  have := F32.abs_val_frem_lt hs c.nf_finite c.nf_positive_normal.1 c.nf_not_zero
  linarith [neg_lt_of_abs_lt this]

end Sys2Proof.Machine

namespace Sys2Proof

/-- Settles O38, by the class of the operands. -/
theorem additionRule : Obligations.AdditionRule := by
  intro a b
  refine ⟨F32.fadd_nan, F32.fadd_of_inf_inf, F32.fadd_of_inf_left,
    fun ha hb => F32.fadd_of_inf_right ha hb (F32.isNaN_of_isInf hb),
    fun ha hb => ⟨fun h => ?_, F32.fadd_roundsTo ha hb⟩, F32.fadd_comm a b⟩
  rw [F32.fadd_of_sum_zero ha hb h]
  cases F32.sign a <;> cases F32.sign b <;> decide

/-- Settles O39: subtraction is addition of the negated operand. -/
theorem subtractionRule : Obligations.SubtractionRule :=
  ⟨fun _ _ => ⟨F32.fsub_nan, F32.fsub_eq_fadd_neg⟩, fun _ => F32.fsub_self, by decide, by decide⟩

/-- Settles O40, by the class of the operands. -/
theorem multiplicationRule : Obligations.MultiplicationRule := by
  intro a b
  refine ⟨F32.fmul_nan, ?_, F32.fmul_inf,
    fun ha hb => ⟨F32.fmul_of_product_zero ha hb, fun _ => F32.fmul_roundsTo ha hb⟩, F32.fmul_comm a b⟩
  rintro (⟨ha, hb⟩ | ⟨ha, hb⟩)
  · exact F32.fmul_inf_zero ha hb
  · rw [F32.fmul_comm, F32.fmul_inf_zero hb ha]

/-- Settles O41, by the class of the operands. -/
theorem divisionRule : Obligations.DivisionRule := by
  intro a b
  refine ⟨F32.fdiv_nan, F32.fdiv_inf_inf, F32.fdiv_inf_finite, F32.fdiv_finite_inf, fun ha hb => ?_,
    fun ha h0 hb => ?_,
    fun ha hb h0 => ⟨F32.fdiv_of_quotient_zero ha hb h0, fun _ => F32.fdiv_roundsTo ha hb h0⟩⟩
  · rw [F32.fdiv_by_zero (F32.isFinite_of_isZero ha) hb, if_pos ha]
  · rw [F32.fdiv_by_zero ha hb, h0]
    rfl

/-- Settles O42, by exactness of the remainder in units. -/
theorem remainderIsExact : Obligations.RemainderIsExact := by
  intro a n hn h1
  obtain ⟨h0, hs⟩ := F32.positive_of_one_le_val hn h1
  exact ⟨F32.frem_of_not_finite n, fun ha => ⟨(F32.frem_exact ha hn h0).1, F32.val_frem ha hn hs h0,
    F32.abs_val_frem_lt ha hn hs h0, F32.sign_frem ha hn h0⟩⟩

/-- Settles O48, by the branches of `wrap_of_finite`. -/
theorem wrapBringsSumsIntoTheTable : Obligations.WrapBringsSumsIntoTheTable := by
  intro c s
  constructor
  · refine ⟨fun h => ?_, Machine.wrap_of_not_finite c.nf⟩
    rw [← Bool.not_eq_true]
    exact fun hs => (Machine.wrap_inRange hs).ne_cnan h
  · intro hs
    refine ⟨Machine.wrap_inRange hs, ?_⟩
    have hraised := Machine.raised_remainder_pos (c := c) hs
    rw [← Machine.val_frem_nf hs, Machine.wrap_of_finite hs]
    refine ⟨fun hr => if_pos hr, fun hr => ?_, fun hr => ⟨F32.fadd (F32.frem s c.nf) c.nf, ?_, ?_⟩⟩
    · rw [if_neg hr.ne', if_pos hr]
    · rw [← c.val_nf]
      exact F32.fadd_roundsTo (F32.frem_exact hs c.nf_finite c.nf_not_zero).1 c.nf_finite hraised.ne'
    · rw [if_neg hr.ne, if_neg hr.not_gt]

end Sys2Proof
end

section
/-!
PROOFS. SETF (41_frequency_control.md R130, R133, R135): its word is the selecting bits beside the pattern, its write
overwrites an earlier one, it completes without a strobe, and 30 Hz at the default parameters.
-/

namespace Sys2Proof

/-- The selecting bits and the pattern do not overlap, so that adding them is joining them (30_encoding.md R78). -/
theorem encode_setf_eq_or (f : F32) : encode (.setf f) = 0x300000000#34 ||| f.setWidth 34 := by
  apply BitVec.eq_of_toNat_eq
  rw [Laws.encode_setf_toNat, BitVec.toNat_or, BitVec.toNat_setWidth_of_le (by decide)]
  exact Nat.two_pow_add_eq_or_of_lt f.isLt 3

namespace Machine

@[simp] theorem State.writePinc_writePinc (s : State) (v w : F32) : (s.writePinc v).writePinc w = s.writePinc w := rfl

theorem Clocked.complete_setf (f : F32) (s : State) (tick : Nat) :
    Clocked.complete (.setf f) s tick = ⟨s.after (.setf f), .ready, tick⟩ := rfl

/-- Only a strobe cycle shows `sample_valid = 1` (10_state.md R25). -/
theorem Clocked.sampleValid_of_ready (s : State) (tick : Nat) (p : Pins) :
    (Clocked.outputs ⟨s, .ready, tick⟩ p).sampleValid = false := Bool.and_false _

/-- The two operations of SETF on 30.0 at the default parameters (41_frequency_control.md R130): 30.0 * 64.0 is 1920.0,
and the quotient by 44100.0 is rounded. -/
theorem thirty_hertz_operations : F32.fmul 0x41F00000#32 0x42800000#32 = 0x44F00000#32 ∧
    F32.fdiv 0x44F00000#32 0x472C4400#32 = 0x3D32544A#32 := by
  decide +kernel

theorem increment_thirty_hertz {c : Config} (hn : c.n = 64) (hsr : c.sampleRate = 44100) :
    increment Numerics.ieee c 0x41F00000#32 = 0x3D32544A#32 := by
  obtain ⟨-, -, -, h64, h44100, -⟩ := F32.u2f_listed
  obtain ⟨hmul, hdiv⟩ := thirty_hertz_operations
  rw [increment, Config.nf, Config.srf, hn, hsr, h64, h44100, Numerics.ieee_fmul, hmul, Numerics.ieee_fdiv, hdiv]

theorem exec_setf_thirty_hertz {s : State} (hn : s.inst.n = 64) (hsr : s.inst.sampleRate = 44100) :
    exec (.setf 0x41F00000#32) s = .next (s.writePinc 0x3D32544A#32) := by
  rw [exec_setf, increment_thirty_hertz hn hsr]

theorem val_thirty_hertz_increment : F32.val 0x3D32544A#32 = 11686986 / 2 ^ 28 := by
  decide +kernel

end Machine

open Machine

/-- Settles O9: the word by `encode_setf_eq_or`, the write by `exec_setf`, the example by `exec_setf_thirty_hertz`. -/
theorem setfWritesTheIncrement : Obligations.SetfWritesTheIncrement := by
  refine ⟨fun f => ?word, fun f s => exec_setf f s, fun f s tick p => ?quiet, fun s hs => ?thirtyHertz⟩
  case word => rw [← encode_setf_eq_or, decode_encode]
  case quiet => rw [Clocked.complete_setf, Clocked.sampleValid_of_ready]
  case thirtyHertz => exact exec_setf_thirty_hertz (by rw [hs]; rfl) (by rw [hs]; rfl)

/-- Settles O25: NEXT samples at the phase before its advance, SETF writes PINC alone, and a second write of PINC
replaces the first. -/
theorem setfShowsOneSampleLater : Obligations.SetfShowsOneSampleLater := by
  intro s f g
  refine ⟨?sampleUnmoved, ?phaseUsesIncrement, ?phaseKept, ?sampleKept, ?overwritten⟩
  case sampleUnmoved => simp only [after_next, after_setf, State.emit_sample, State.writeSample_sample,
    State.writePinc_inst, State.writePinc_phase]
  case phaseUsesIncrement => simp only [after_next, after_setf, State.emit_phase, State.writeSample_phase,
    State.writePhase_phase, State.writePinc_inst, State.writePinc_phase, State.writePinc_pinc]
  case phaseKept => rw [after_setf, State.writePinc_phase]
  case sampleKept => rw [after_setf, State.writePinc_sample]
  case overwritten => simp only [after_setf, State.writePinc_inst, State.writePinc_writePinc]

/-- Settles O26, by the exact value of the increment. -/
theorem thirtyHertzIncrement : Obligations.ThirtyHertzIncrement := by
  intro s hn hsr
  refine ⟨exec_setf_thirty_hertz hn hsr, ?_⟩
  rw [val_thirty_hertz_increment]
  norm_num [abs_lt]

end Sys2Proof
end

section
/-!
PROOFS. Reasoning from a correct rounding (40_numerics.md R92): rounding is monotone against patterns and keeps every
value that has one; the value and the sign of a sum; halving.
-/

namespace Sys2Proof.F32

/-! What `RoundsTo` gives -/

theorem abs_val_le_largest (b : F32) : |val b| ≤ (2 ^ 24 - 1) * 2 ^ 104 := by
  have hneg := val_le_largest (neg b)
  rw [val_neg] at hneg
  exact abs_le.2 ⟨by linarith, val_le_largest b⟩

section Rounding

variable {x : ℚ} {r b : F32}

/-- What does not exceed a pattern in magnitude does not overflow. -/
theorem RoundsTo.finite (h : RoundsTo x r) (hx : |x| ≤ |val b|) : isFinite r = true := by
  obtain ⟨hnan, hinf, -⟩ := h
  rcases nan_or_inf_or_finite r with hr | hr | hr
  · rw [hnan] at hr
    cases hr
  · have hoverflow : (2 : ℚ) ^ 128 - 2 ^ 103 ≤ (2 ^ 24 - 1) * 2 ^ 104 :=
      (hinf.1 hr).trans (hx.trans (abs_val_le_largest b))
    norm_num at hoverflow
  · exact hr

theorem RoundsTo.le_val (h : RoundsTo x r) (hr : isFinite r = true) (hb : isFinite b = true) (hx : val b ≤ x) :
    val b ≤ val r := by
  obtain ⟨-, -, -, -, hnear⟩ := h
  obtain ⟨hle, -⟩ := hnear hr b hb
  by_contra! hlt
  rw [abs_of_nonpos (by linarith), abs_of_nonpos (by linarith)] at hle
  linarith

theorem RoundsTo.val_le (h : RoundsTo x r) (hr : isFinite r = true) (hb : isFinite b = true) (hx : x ≤ val b) :
    val r ≤ val b := by
  obtain ⟨-, -, -, -, hnear⟩ := h
  obtain ⟨hle, -⟩ := hnear hr b hb
  by_contra! hlt
  rw [abs_of_nonneg (by linarith), abs_of_nonneg (by linarith)] at hle
  linarith

/-- A pattern bounds the magnitude of the rounded value as well as that of the exact one. -/
theorem RoundsTo.abs_val_le (h : RoundsTo x r) (hb : isFinite b = true) (hx : |x| ≤ val b) :
    isFinite r = true ∧ |val r| ≤ val b := by
  have hr : isFinite r = true := h.finite (hx.trans (le_abs_self _))
  obtain ⟨hlo, hhi⟩ := abs_le.1 hx
  have hneg := h.le_val hr (b := neg b) (by rwa [isFinite_neg]) (by rwa [val_neg])
  rw [val_neg] at hneg
  exact ⟨hr, abs_le.2 ⟨hneg, h.val_le hr hb hhi⟩⟩

/-- A value that has a pattern is not changed by rounding. -/
theorem RoundsTo.exact (h : RoundsTo x r) (hb : isFinite b = true) (hx : val b = x) :
    isFinite r = true ∧ val r = x := by
  have hr : isFinite r = true := h.finite (by rw [hx])
  exact ⟨hr, le_antisymm (hx ▸ h.val_le hr hb hx.ge) (hx ▸ h.le_val hr hb hx.le)⟩

end Rounding

/-- A finite pattern is its sign and its value. -/
theorem eq_of_sign_of_val {a b : F32} (ha : isFinite a = true) (hb : isFinite b = true) (hs : sign a = sign b)
    (h : val a = val b) : a = b := by
  cases hz : isZero a with
  | true =>
    have hzb : isZero b = true := (val_eq_zero_iff hb).1 (h ▸ (val_eq_zero_iff ha).2 hz)
    rw [eq_zero_of_isZero hz, eq_zero_of_isZero hzb, hs]
  | false =>
    have hzb : isZero b = false := by
      rw [← Bool.not_eq_true, ← val_eq_zero_iff hb, ← h, val_eq_zero_iff ha, hz]
      decide
    have hu : units a = units b := by
      have habs := abs_val ha
      rw [h, abs_val hb, mul_left_inj' (by positivity)] at habs
      exact_mod_cast habs.symm
    calc a = round32 ⟨sign a, units a, 1⟩ false := (round32_units a false ha hz).symm
      _ = round32 ⟨sign b, units b, 1⟩ false := by rw [hs, hu]
      _ = b := round32_units b false hb hzb

theorem sign_of_val_pos {b : F32} (hb : isFinite b = true) (h : 0 < val b) : sign b = false := by
  have hz : isZero b = false := by
    rw [← Bool.not_eq_true, ← val_eq_zero_iff hb]
    exact h.ne'
  rw [← Bool.not_eq_true, ← val_neg_iff hb hz]
  exact h.not_gt

theorem val_nonneg_of_sign {b : F32} (hb : isFinite b = true) (h : sign b = false) : 0 ≤ val b := by
  rw [val_eq_signedUnits b hb, signedUnits_of_sign_false h]
  positivity

/-! Sums and differences -/

/-- Every finite sum is correctly rounded, an exact zero included (40_numerics.md R94). -/
theorem fadd_roundsTo_sum {a b : F32} (ha : isFinite a = true) (hb : isFinite b = true) :
    RoundsTo (val a + val b) (fadd a b) := by
  by_cases h : val a + val b = 0
  · rw [fadd_of_sum_zero ha hb h, h]
    exact roundsTo_zero _
  · exact fadd_roundsTo ha hb h

theorem fsub_of_finite {a b : F32} (ha : isFinite a = true) (hb : isFinite b = true) : fsub a b = fadd a (neg b) :=
  fsub_eq_fadd_neg (isNaN_of_finite ha) (isNaN_of_finite hb)

theorem fsub_roundsTo {a b : F32} (ha : isFinite a = true) (hb : isFinite b = true) :
    RoundsTo (val a - val b) (fsub a b) := by
  rw [fsub_of_finite ha hb, sub_eq_add_neg, ← val_neg]
  exact fadd_roundsTo_sum ha (by rwa [isFinite_neg])

/-- A negative sum is at least one unit below zero, and rounding does not lose that: sums do not underflow. -/
theorem val_fadd_neg {a b : F32} (ha : isFinite a = true) (hb : isFinite b = true) (hf : isFinite (fadd a b) = true)
    (h : val a + val b < 0) : val (fadd a b) < 0 := by
  have hunit : isFinite 0x80000001#32 = true ∧ val 0x80000001#32 = -(2 : ℚ) ^ (-149 : ℤ) := by decide +kernel
  obtain ⟨hunit_finite, hunit_val⟩ := hunit
  have hpos : (0 : ℚ) < 2 ^ (-149 : ℤ) := by positivity
  have hsum : val a + val b ≤ -(2 : ℚ) ^ (-149 : ℤ) := by
    rw [val_add_val ha hb] at h ⊢
    have hz : signedUnits a + signedUnits b ≤ -1 := by
      by_contra! hlt
      have : (0 : ℚ) ≤ (signedUnits a + signedUnits b : ℤ) := Int.cast_nonneg (by omega)
      exact h.not_ge (by positivity)
    have hz' : ((signedUnits a + signedUnits b : ℤ) : ℚ) ≤ -1 := by exact_mod_cast hz
    nlinarith
  have := (fadd_roundsTo_sum ha hb).val_le hf hunit_finite (hunit_val ▸ hsum)
  rw [hunit_val] at this
  linarith

/-- A sum of value at least 0 whose first operand has sign 0 has sign 0: it is no `-0.0`. -/
theorem sign_fadd {a b : F32} (ha : isFinite a = true) (hb : isFinite b = true) (hf : isFinite (fadd a b) = true)
    (hs : sign a = false) (h : 0 ≤ val (fadd a b)) : sign (fadd a b) = false := by
  have hsum : 0 ≤ val a + val b := not_lt.1 fun hneg => (val_fadd_neg ha hb hf hneg).not_ge h
  rcases hsum.eq_or_lt with h0 | hpos
  · rw [fadd_of_sum_zero ha hb h0.symm, hs, Bool.false_and, zero, sign_pack]
  · obtain ⟨-, -, -, hsign, -⟩ := fadd_roundsTo_sum ha hb
    rw [hsign hpos.ne', decide_eq_false hpos.not_gt]

/-- A difference at least 0 that is the value of some pattern `d` is exact; it has sign 0 where the first operand
has. -/
theorem fsub_exact {a b d : F32} (ha : isFinite a = true) (hb : isFinite b = true) (hd : isFinite d = true)
    (hs : sign a = false) (h : val d = val a - val b) (h0 : 0 ≤ val a - val b) :
    isFinite (fsub a b) = true ∧ sign (fsub a b) = false ∧ val (fsub a b) = val a - val b := by
  obtain ⟨hf, hv⟩ := (fsub_roundsTo ha hb).exact hd h
  refine ⟨hf, ?_, hv⟩
  rw [← hv] at h0
  rw [fsub_of_finite ha hb] at hf h0 ⊢
  exact sign_fadd ha (by rwa [isFinite_neg]) hf hs h0

/-! Patterns with a given value -/

/-- A magnitude of at least `2 ^ -125` is at least two binades above the subnormals, so that its half is normal. -/
theorem two_le_expo_iff {b : F32} (hf : isFinite b = true) : (2 : ℚ) ^ (-125 : ℤ) ≤ |val b| ↔ 2 ≤ expo b := by
  have hunits : (2 : ℚ) ^ (-125 : ℤ) = (2 ^ 24 : ℕ) * 2 ^ (-149 : ℤ) := by norm_num
  rw [hunits, abs_val hf, mul_le_mul_iff_left₀ (by positivity), Nat.cast_le]
  constructor
  · intro h
    by_contra! hlt
    have hpow : 2 ^ expo b ≤ 2 ^ 1 := Nat.pow_le_pow_right (by norm_num) (by omega)
    have := units_lt_next_binade b
    omega
  · intro h
    calc 2 ^ 24 = 2 ^ 23 * 2 ^ 1 := by norm_num
      _ ≤ (2 ^ 23 + frac b) * 2 ^ (expo b - 1) :=
        Nat.mul_le_mul (by omega) (Nat.pow_le_pow_right (by norm_num) (by omega))
      _ = units b := (units_of_expo_pos (by omega)).symm

/-- Half of a pattern two binades or more above the subnormals has a pattern: the exponent is one lower. -/
theorem exists_half {t : F32} (hf : isFinite t = true) (h : val t = 0 ∨ (2 : ℚ) ^ (-125 : ℤ) ≤ |val t|) :
    ∃ b : F32, isFinite b = true ∧ val b = val t / 2 := by
  rcases h with h0 | hbig
  · exact ⟨pzero, by decide, by rw [h0, zero_div]; exact val_of_isZero (by decide)⟩
  · obtain ⟨e, he⟩ := Nat.exists_eq_add_of_le' ((two_le_expo_iff hf).1 hbig)
    have hexpo : e ≤ 252 := by
      have := (isFinite_iff t).1 hf
      have := expo_lt t
      omega
    have hb : isFinite (pack (sign t) (e + 1) (frac t)) = true := isFinite_pack _ _ (by omega)
    have hu : units t = 2 * units (pack (sign t) (e + 1) (frac t)) := by
      rw [units_pack_normal _ (by omega) (frac_lt t), units_of_expo_pos (by omega), he, Nat.add_sub_assoc (by norm_num),
        pow_succ]
      ring
    refine ⟨_, hb, ?_⟩
    rw [val_eq_mul hb, val_eq_mul hf, sign_pack, hu]
    push_cast
    ring

theorem val_half : val 0x3F000000#32 = 1 / 2 := by
  decide +kernel

/-- Halving a zero or a pattern two binades or more above the subnormals is exact (42_sample_generation.md R151). -/
theorem val_half_fmul {t : F32} (hf : isFinite t = true) (h : val t = 0 ∨ (2 : ℚ) ^ (-125 : ℤ) ≤ |val t|) :
    isFinite (fmul 0x3F000000#32 t) = true ∧ val (fmul 0x3F000000#32 t) = val t / 2 := by
  obtain ⟨b, hb, hval⟩ := exists_half hf h
  have hround := fmul_roundsTo (a := 0x3F000000#32) (by decide) hf
  rw [val_half, show 1 / 2 * val t = val t / 2 by ring] at hround
  exact hround.exact hb hval

end Sys2Proof.F32
end

section
/-!
PROOFS. The parts of NEXT for a phase in range (42_sample_generation.md R141 to R144): the indexer is the floor, the
weight the fractional part, both exact; the values inside the interpolator are bounded; a sum in `[0, 2N)` is reduced
by at most one exact subtraction of `N`.
-/

namespace Sys2Proof.Machine

variable {c : Config} {p : F32}

/-! The indexer -/

theorem lowIndex_lt (c : Config) (p : F32) : lowIndex Numerics.ieee c p < c.n := by
  have hle : lowIndex Numerics.ieee c p ≤ c.n - 1 := F32.f2idx_le c.n p
  have := c.n_pos
  omega

theorem highIndex_eq_mod (c : Config) (p : F32) :
    highIndex Numerics.ieee c p = (lowIndex Numerics.ieee c p + 1) % c.n :=
  c.succIndex_eq_mod (lowIndex_lt c p)

theorem highIndex_lt (c : Config) (p : F32) : highIndex Numerics.ieee c p < c.n :=
  c.succIndex_lt (lowIndex_lt c p)

theorem succIndex_eq_zero_iff (c : Config) (i : Nat) : c.succIndex i = 0 ↔ i = c.n - 1 := by
  unfold Config.succIndex
  split
  case isTrue h => simp [h]
  case isFalse h => simp [h]

@[simp] theorem lowIndex_cnan (c : Config) : lowIndex Numerics.ieee c F32.cnan = 0 := by
  simp [lowIndex, F32.f2idx]

@[simp] theorem highIndex_cnan (c : Config) : highIndex Numerics.ieee c F32.cnan = 1 % c.n := by
  rw [highIndex_eq_mod, lowIndex_cnan]

/-- The index of a phase in range is not saturated: it is the floor of the value (42_sample_generation.md R141). -/
theorem lowIndex_eq_floor (h : PhaseInRange c p) : (lowIndex Numerics.ieee c p : ℤ) = ⌊F32.val p⌋ := by
  obtain ⟨hf, hs⟩ := h.finite_sign_false
  have hlt : F32.units p / 2 ^ 149 < c.n := by
    rw [Nat.div_lt_iff_lt_mul (by positivity), ← c.units_nf]
    exact (phaseInRange_iff_units.1 h).2
  have hindex : lowIndex Numerics.ieee c p = F32.units p / 2 ^ 149 := by
    simp only [lowIndex, Numerics.ieee_f2idx, F32.f2idx, F32.isNaN_of_finite hf, hs, F32.isInf_of_finite hf,
      Bool.false_eq_true, if_false]
    omega
  have hval : F32.val p = (F32.units p : ℕ) / ((2 ^ 149 : ℕ) : ℚ) := by
    rw [F32.val_eq_signedUnits p hf, F32.signedUnits_of_sign_false hs, Int.cast_natCast, div_eq_mul_inv]
    norm_num
  rw [hindex, hval, Rat.floor_natCast_div_natCast, Int.natCast_ediv]

theorem lowIndex_of_floor {i : Nat} (h : PhaseInRange c p) (hlo : (i : ℚ) ≤ F32.val p) (hhi : F32.val p < i + 1) :
    lowIndex Numerics.ieee c p = i := by
  have hfloor : ⌊F32.val p⌋ = i := Int.floor_eq_iff.2 ⟨by exact_mod_cast hlo, by exact_mod_cast hhi⟩
  exact_mod_cast (lowIndex_eq_floor h).trans hfloor

/-- Settles O28: the bounds by the saturation of `f2idx`, the floor by `lowIndex_eq_floor`. -/
theorem indexerIsFloorAndSuccessor : Obligations.IndexerIsFloorAndSuccessor := by
  intro c p
  refine ⟨lowIndex_lt c p, highIndex_lt c p, highIndex_eq_mod c p, succIndex_eq_zero_iff c _, lowIndex_eq_floor, ?_⟩
  rintro rfl
  exact ⟨lowIndex_cnan c, highIndex_cnan c⟩

/-! The weight -/

theorem PhaseInRange.val_nonneg (h : PhaseInRange c p) : 0 ≤ F32.val p :=
  F32.val_nonneg_of_sign h.finite_sign_false.1 h.finite_sign_false.2

theorem PhaseInRange.val_lt (h : PhaseInRange c p) : F32.val p < c.n := (phaseInRange_iff_val.1 h).2.2

/-- The fractional part of a value at least 0 has a pattern: it is the exact remainder by 1.0 (40_numerics.md R98). -/
theorem val_frem_one (hf : F32.isFinite p = true) (h0 : 0 ≤ F32.val p) :
    F32.val (F32.frem p F32.one) = Int.fract (F32.val p) := by
  rw [F32.val_frem hf (by decide) (by decide) (by decide), F32.val_one, div_one, mul_one, truncQ, if_pos h0, Int.fract]

theorem weight_ieee (c : Config) (p : F32) :
    weight Numerics.ieee c p = F32.fsub p (F32.u2f (lowIndex Numerics.ieee c p)) := rfl

/-- The weight is the fractional part of the phase, exactly, with sign 0 (42_sample_generation.md R142). -/
theorem weight_of_inRange (h : PhaseInRange c p) :
    F32.isFinite (weight Numerics.ieee c p) = true ∧ F32.sign (weight Numerics.ieee c p) = false ∧
    F32.val (weight Numerics.ieee c p) = Int.fract (F32.val p) := by
  obtain ⟨hf, hs⟩ := h.finite_sign_false
  have hi : lowIndex Numerics.ieee c p ≤ 2 ^ 24 := (lowIndex_lt c p).le.trans c.n_legal.2
  obtain ⟨hif, -, hiv⟩ := F32.u2f_finite_sign_val hi
  have hfract : F32.val p - F32.val (F32.u2f (lowIndex Numerics.ieee c p)) = Int.fract (F32.val p) := by
    rw [hiv, Int.fract, ← lowIndex_eq_floor h, Int.cast_natCast]
  rw [weight_ieee, ← hfract]
  refine F32.fsub_exact hf hif (F32.frem_exact hf (n := F32.one) (by decide) (by decide)).1 hs ?_ ?_
  · rw [hfract, val_frem_one hf h.val_nonneg]
  · rw [hfract]
    exact Int.fract_nonneg _

theorem weight_cnan (c : Config) : weight Numerics.ieee c F32.cnan = F32.cnan := by
  rw [weight_ieee, F32.fsub_nan (.inl F32.isNaN_cnan)]

/-- The weight is `+0.0` exactly where the phase is an integer. -/
theorem weight_eq_zero_iff (h : PhaseInRange c p) :
    weight Numerics.ieee c p = 0x00000000#32 ↔ ∃ k : ℤ, F32.val p = k := by
  obtain ⟨hf, hs, hv⟩ := weight_of_inRange h
  have hfract : Int.fract (F32.val p) = 0 ↔ ∃ k : ℤ, F32.val p = k := by
    rw [Int.fract_eq_zero_iff]
    exact exists_congr fun k => eq_comm
  have hzero : F32.val 0x00000000#32 = 0 := F32.val_of_isZero (by decide)
  rw [← hfract, ← hv]
  constructor
  · intro hw
    rw [hw, hzero]
  · intro hw
    exact F32.eq_of_sign_of_val hf (by decide) hs (hw.trans hzero.symm)

/-- Settles O29, by `weight_of_inRange`. -/
theorem weightIsTheExactFraction : Obligations.WeightIsTheExactFraction := by
  refine fun c => ⟨fun p h => ?_, weight_cnan c⟩
  obtain ⟨hf, hs, hv⟩ := weight_of_inRange h
  refine ⟨hf, hs, ?_, hv ▸ Int.fract_nonneg _, hv ▸ Int.fract_lt_one _, weight_eq_zero_iff h⟩
  rw [hv, Int.fract, ← lowIndex_eq_floor h, Int.cast_natCast]

/-! The interpolator -/

/-- The interpolator's weight of the lower entry is in `(0, 1]` (42_sample_generation.md R143). -/
theorem one_sub_weight_bounds {w : F32} (hf : F32.isFinite w = true) (h0 : 0 ≤ F32.val w) (h1 : F32.val w < 1) :
    F32.isFinite (F32.fsub F32.one w) = true ∧ 0 < F32.val (F32.fsub F32.one w) ∧
    F32.val (F32.fsub F32.one w) ≤ 1 := by
  have hone := F32.val_one
  have hround := F32.fsub_roundsTo (a := F32.one) (by decide) hf
  rw [hone] at hround
  have hw : F32.val w ≤ F32.val (F32.pred F32.one) := F32.val_le_val_pred (by decide) (by decide) hf (by rwa [hone])
  have hgap : F32.isFinite 0x33800000#32 = true ∧ 0 < F32.val 0x33800000#32 ∧
      F32.val 0x33800000#32 = 1 - F32.val (F32.pred F32.one) := by decide +kernel
  obtain ⟨hgap_finite, hgap_pos, hgap_val⟩ := hgap
  obtain ⟨hu, hle⟩ := hround.abs_val_le (b := F32.one) (by decide) (by rw [hone, abs_le]; constructor <;> linarith)
  have hlow := hround.le_val hu hgap_finite (by linarith)
  exact ⟨hu, by linarith, hone ▸ (le_abs_self _).trans hle⟩

/-- A legal entry is in `[-1, 1]` (00_scope.md R7). -/
theorem entryLegal_abs_val_le_one {b : F32} (h : entryLegal b = true) : |F32.val b| ≤ 1 := by
  have hmag : (b.extractLsb' 0 31).toNat ≤ 0x3F800000 := of_decide_eq_true h
  have hu : F32.units b ≤ 2 ^ 149 := by
    have hfields := F32.toNat_eq_fields b
    have hexpo := F32.expo_lt b
    have hfrac := F32.frac_lt b
    rw [BitVec.extractLsb'_toNat, Nat.shiftRight_zero] at hmag
    rcases (by omega : F32.expo b < 127 ∨ F32.expo b = 127 ∧ F32.frac b = 0) with he | ⟨he, hz⟩
    · calc F32.units b ≤ 2 ^ 23 * 2 ^ F32.expo b := (F32.units_lt_next_binade b).le
        _ ≤ 2 ^ 23 * 2 ^ 126 := Nat.mul_le_mul_left _ (Nat.pow_le_pow_right (by norm_num) (by omega))
        _ = 2 ^ 149 := by norm_num
    · rw [F32.units_of_expo_pos (by omega), he, hz]
      norm_num
  calc |F32.val b| = F32.units b * (2 : ℚ) ^ (-149 : ℤ) := F32.abs_val (entryLegal_finite h)
    _ ≤ (2 ^ 149 : ℕ) * (2 : ℚ) ^ (-149 : ℤ) := by gcongr
    _ = 1 := by norm_num

/-- A product of values of magnitude at most 1 is finite and of magnitude at most 1. -/
theorem fmul_abs_le_one {a b : F32} (ha : F32.isFinite a = true) (hb : F32.isFinite b = true)
    (hav : |F32.val a| ≤ 1) (hbv : |F32.val b| ≤ 1) :
    F32.isFinite (F32.fmul a b) = true ∧ |F32.val (F32.fmul a b)| ≤ 1 := by
  have hprod : |F32.val a * F32.val b| ≤ 1 := by
    rw [abs_mul]
    exact mul_le_one₀ hav (abs_nonneg _) hbv
  have := (F32.fmul_roundsTo ha hb).abs_val_le (b := F32.one) (by decide)
  rw [F32.val_one] at this
  exact this hprod

/-- A sum of values of magnitude at most 1 is finite and of magnitude at most 2. -/
theorem fadd_abs_le_two {a b : F32} (ha : F32.isFinite a = true) (hb : F32.isFinite b = true)
    (hav : |F32.val a| ≤ 1) (hbv : |F32.val b| ≤ 1) :
    F32.isFinite (F32.fadd a b) = true ∧ |F32.val (F32.fadd a b)| ≤ 2 := by
  have htwo : F32.isFinite 0x40000000#32 = true ∧ F32.val 0x40000000#32 = 2 := by decide +kernel
  obtain ⟨htwo_finite, htwo_val⟩ := htwo
  have hsum : |F32.val a + F32.val b| ≤ 2 := (abs_add_le _ _).trans (by linarith)
  have := (F32.fadd_roundsTo_sum ha hb).abs_val_le htwo_finite
  rw [htwo_val] at this
  exact this hsum

theorem sampleAt_eq_interpolate (nm : Numerics) (c : Config) (p : F32) : sampleAt nm c p =
    interpolate nm (weight nm c p) (romRead c (lowIndex nm c p)) (romRead c (highIndex nm c p)) := rfl

theorem interpolate_ieee (w t0 t1 : F32) : interpolate Numerics.ieee w t0 t1 =
    F32.fadd (F32.fmul (F32.fsub F32.one w) t0) (F32.fmul w t1) := rfl

/-- Settles O30: each rounding keeps the bound of its exact operand, because the bound is a pattern. -/
theorem interpolatedSampleIsBounded : Obligations.InterpolatedSampleIsBounded := by
  intro c p h t0 t1 w u y
  have ht0 : entryLegal t0 = true := romRead_legal c (lowIndex_lt c p)
  have ht1 : entryLegal t1 = true := romRead_legal c (highIndex_lt c p)
  have hv0 := entryLegal_abs_val_le_one ht0
  have hv1 := entryLegal_abs_val_le_one ht1
  obtain ⟨hw, -, hwv⟩ := weight_of_inRange h
  have hw0 : 0 ≤ F32.val w := hwv ▸ Int.fract_nonneg _
  have hw1 : F32.val w < 1 := hwv ▸ Int.fract_lt_one _
  obtain ⟨hu, hu0, hu1⟩ := one_sub_weight_bounds hw hw0 hw1
  obtain ⟨ha, hav⟩ := fmul_abs_le_one hu (entryLegal_finite ht0) (by rwa [abs_of_pos hu0]) hv0
  obtain ⟨hb, hbv⟩ := fmul_abs_le_one hw (entryLegal_finite ht1) (by rw [abs_of_nonneg hw0]; exact hw1.le) hv1
  obtain ⟨hy, hyv⟩ := fadd_abs_le_two ha hb hav hbv
  exact ⟨rfl, hu0, hu1, hw0, hw1, hv0, hv1, hav, hbv, hy, hyv⟩

theorem sampleAt_finite (h : PhaseInRange c p) : F32.isFinite (sampleAt Numerics.ieee c p) = true := by
  obtain ⟨-, -, -, -, -, -, -, -, -, hfinite, -⟩ := interpolatedSampleIsBounded c p h
  exact hfinite

@[simp] theorem sampleAt_cnan (c : Config) : sampleAt Numerics.ieee c F32.cnan = F32.cnan := by
  have hu : F32.fsub F32.one F32.cnan = F32.cnan := F32.fsub_nan (.inr F32.isNaN_cnan)
  rw [sampleAt_eq_interpolate, weight_cnan, interpolate_ieee, hu, F32.fmul_nan (.inl F32.isNaN_cnan)]
  exact F32.fadd_nan (.inl F32.isNaN_cnan)

/-! The accumulator -/

section Reduction

variable {s : F32} (hs : F32.isFinite s = true)
include hs

/-- A remainder at least 0 is answered as it is, a zero one as `+0.0` (40_numerics.md R103). -/
theorem wrap_of_frem_nonneg (h : 0 ≤ F32.val (F32.frem s c.nf)) :
    F32.val (Numerics.ieee.wrap c.nf s) = F32.val (F32.frem s c.nf) := by
  rw [wrap_of_finite hs]
  split
  case isTrue h0 => rw [h0, F32.val_of_isZero (by decide)]
  case isFalse h0 => rw [if_pos (lt_of_le_of_ne h (Ne.symm h0))]

/-- A sum in `[0, N)` is its own remainder. -/
theorem val_wrap_of_lt (h0 : 0 ≤ F32.val s) (hlt : F32.val s < c.n) :
    F32.val (Numerics.ieee.wrap c.nf s) = F32.val s := by
  have hn : (0 : ℚ) < c.n := by exact_mod_cast c.n_pos
  have hfrem : F32.val (F32.frem s c.nf) = F32.val s := by
    have hfloor : ⌊F32.val s / c.n⌋ = 0 := Int.floor_eq_zero_iff.2 ⟨by positivity, (div_lt_one hn).2 hlt⟩
    rw [val_frem_nf hs, truncQ, if_pos (by positivity), hfloor, Int.cast_zero, zero_mul, sub_zero]
  rw [wrap_of_frem_nonneg hs (hfrem ▸ h0), hfrem]

/-- A sum in `[N, 2N)` comes back by exactly `N` (42_sample_generation.md R152). -/
theorem val_wrap_of_ge (hge : (c.n : ℚ) ≤ F32.val s) (hlt : F32.val s < 2 * c.n) :
    F32.val (Numerics.ieee.wrap c.nf s) = F32.val s - c.n := by
  have hn : (0 : ℚ) < c.n := by exact_mod_cast c.n_pos
  have hfrem : F32.val (F32.frem s c.nf) = F32.val s - c.n := by
    have hfloor : ⌊F32.val s / c.n⌋ = 1 := by
      rw [Int.floor_eq_iff, Int.cast_one, le_div_iff₀ hn, div_lt_iff₀ hn]
      constructor <;> linarith
    rw [val_frem_nf hs, truncQ, if_pos (div_nonneg (hn.le.trans hge) hn.le), hfloor, Int.cast_one, one_mul]
  rw [wrap_of_frem_nonneg hs (hfrem ▸ sub_nonneg.2 hge), hfrem]

end Reduction

/-- The reduction leaves a phase in range as it is, bit for bit. -/
theorem wrap_of_inRange (h : PhaseInRange c p) : Numerics.ieee.wrap c.nf p = p := by
  obtain ⟨hf, hs⟩ := h.finite_sign_false
  obtain ⟨hwf, hws⟩ := (wrap_inRange (c := c) hf).finite_sign_false
  exact F32.eq_of_sign_of_val hwf hf (hws.trans hs.symm) (val_wrap_of_lt hf h.val_nonneg h.val_lt)

/-- The reduction of a sum in `[N, 2N)` is the subtraction of `N_f`, bit for bit. -/
theorem wrap_eq_fsub {s : F32} (hs : F32.isFinite s = true) (hge : (c.n : ℚ) ≤ F32.val s)
    (hlt : F32.val s < 2 * c.n) : Numerics.ieee.wrap c.nf s = F32.fsub s c.nf := by
  have hn : (0 : ℚ) < c.n := by exact_mod_cast c.n_pos
  obtain ⟨hwf, hws⟩ := (wrap_inRange (c := c) hs).finite_sign_false
  have hwv := val_wrap_of_ge hs hge hlt
  have hsub : F32.val s - F32.val c.nf = F32.val s - c.n := by rw [c.val_nf]
  obtain ⟨hf, hsign, hv⟩ := F32.fsub_exact hs c.nf_finite hwf (F32.sign_of_val_pos hs (hn.trans_le hge))
    (hwv.trans hsub.symm) (hsub ▸ sub_nonneg.2 hge)
  exact F32.eq_of_sign_of_val hwf hf (hws.trans hsign.symm) (hwv.trans (hv.trans hsub).symm)

/-- The sum of a phase in range and a finite increment is finite (42_sample_generation.md R144). -/
theorem phaseSum_finite {d : F32} (hp : PhaseInRange c p) (hd : F32.isFinite d = true) :
    F32.isFinite (F32.fadd p d) = true := by
  have hn : F32.units c.nf ≤ 2 ^ 24 * 2 ^ 149 := by
    rw [c.units_nf]
    exact Nat.mul_le_mul_right _ c.n_legal.2
  exact F32.isFinite_fadd hp.finite_sign_false.1 hd ((phaseInRange_iff_units.1 hp).2.le.trans hn)

/-- Settles O31: below `N` the sum is a phase in range already, from `N` on the remainder is the exact difference. -/
theorem accumulatorWrapsTheRoundedSum : Obligations.AccumulatorWrapsTheRoundedSum := by
  intro c p d hp hd s
  obtain ⟨hpf, hps⟩ := hp.finite_sign_false
  have hs : F32.isFinite s = true := phaseSum_finite hp hd
  refine ⟨rfl, hs, F32.fadd_roundsTo_sum hpf hd, advance_inRange hp hd, fun h0 hlt => ?_⟩
  change Numerics.ieee.wrap c.nf s = _
  split
  case isTrue hsmall => exact wrap_of_inRange (phaseInRange_iff_val.2 ⟨hs, F32.sign_fadd hpf hd hs hps h0, hsmall⟩)
  case isFalse hbig => exact wrap_eq_fsub hs (not_lt.1 hbig) hlt

end Sys2Proof.Machine
end

section
/-!
PROOFS. The sample at special phases: integers (42_sample_generation.md R150), midpoints (R151), the last table step
(R152).
-/

namespace Sys2Proof.Machine

variable {c : Config} {p : F32} {i : Nat}

/-- The sample of a phase in the `i`-th table step interpolates entry `i` and the one after it. -/
theorem sampleAt_of_step (hlow : lowIndex Numerics.ieee c p = i) :
    sampleAt Numerics.ieee c p =
      interpolate Numerics.ieee (weight Numerics.ieee c p) (romRead c i) (romRead c ((i + 1) % c.n)) := by
  rw [sampleAt_eq_interpolate, highIndex_eq_mod, hlow]

theorem romRead_finite (hi : i < c.n) : F32.isFinite (romRead c i) = true := entryLegal_finite (romRead_legal c hi)

theorem romRead_succ_finite (c : Config) (i : Nat) : F32.isFinite (romRead c ((i + 1) % c.n)) = true :=
  romRead_finite (Nat.mod_lt _ c.n_pos)

/-! Integer phases -/

/-- At an integer phase the weight is `+0.0` and the sample the one of phase 0 with the entries `i` and `i + 1`. -/
theorem sampleAt_integer (hi : i < c.n) (h : PhaseInRange c p) (hv : F32.val p = i) :
    sampleAt Numerics.ieee c p = sampleAtZero (romRead c i) (romRead c ((i + 1) % c.n)) := by
  have hw : weight Numerics.ieee c p = F32.pzero := (weight_eq_zero_iff h).2 ⟨i, by rw [hv, Int.cast_natCast]⟩
  rw [sampleAt_of_step (lowIndex_of_floor h hv.ge (by rw [hv]; exact lt_add_one _)), hw]
  exact interpolate_zero (romRead_finite hi) (romRead_succ_finite c i)

theorem inRange_u2f (hi : i < c.n) : PhaseInRange c (F32.u2f i) ∧ F32.val (F32.u2f i) = i := by
  obtain ⟨hf, hs, hv⟩ := F32.u2f_finite_sign_val (hi.le.trans c.n_legal.2)
  exact ⟨phaseInRange_iff_val.2 ⟨hf, hs, by rw [hv]; exact_mod_cast hi⟩, hv⟩

/-- No entry of the default table is `-0.0`, so that each is returned bit for bit (20_memory.md R45). -/
theorem sampleAtZero_default (hi : i < 64) (t1 : F32) :
    sampleAtZero (romRead Config.default i) t1 = romRead Config.default i := by
  obtain ⟨hneg, -⟩ := romRead_default_class i hi
  unfold sampleAtZero
  split
  case isTrue => rfl
  case isFalse hz =>
    have hzero := (F32.isZero_iff_eq _).1 (Bool.eq_true_of_not_eq_false hz)
    rw [if_neg fun h => hneg h.1, hzero.resolve_right hneg]

/-- Settles O33: `sampleAtZero` says what both kinds of entry give. -/
theorem integerPhaseReturnsTheEntry : Obligations.IntegerPhaseReturnsTheEntry := by
  refine ⟨?general, fun i hi => ?default⟩
  case general =>
    intro c p i hi h hv t0 t1 y
    have hy : y = sampleAtZero t0 t1 := sampleAt_integer hi h hv
    refine ⟨fun hz => ?_, fun hz => ?_⟩
    · rw [hy, sampleAtZero, if_pos hz]
    · rw [hy, sampleAtZero, if_neg (by rw [hz]; decide)]
  case default =>
    obtain ⟨h, hv⟩ := inRange_u2f (c := Config.default) hi
    rw [sampleAt_integer (c := Config.default) hi h hv, sampleAtZero_default hi]

/-! Midpoints -/

theorem weight_midpoint (h : PhaseInRange c p) (hv : F32.val p = i + 1 / 2) :
    weight Numerics.ieee c p = 0x3F000000#32 := by
  obtain ⟨hf, hs, hw⟩ := weight_of_inRange h
  refine F32.eq_of_sign_of_val hf (by decide) hs ?_
  rw [hw, hv, F32.val_half, Int.fract_natCast_add, Int.fract_eq_self]
  norm_num

theorem one_sub_half : F32.fsub F32.one 0x3F000000#32 = 0x3F000000#32 := by
  decide +kernel

/-- With both halves exact the one rounding left is that of the mean (42_sample_generation.md R151). -/
theorem interpolate_half_roundsTo {t0 t1 : F32} (h0 : F32.isFinite t0 = true) (h1 : F32.isFinite t1 = true)
    (hbig0 : F32.val t0 = 0 ∨ (2 : ℚ) ^ (-125 : ℤ) ≤ |F32.val t0|)
    (hbig1 : F32.val t1 = 0 ∨ (2 : ℚ) ^ (-125 : ℤ) ≤ |F32.val t1|) :
    F32.RoundsTo ((F32.val t0 + F32.val t1) / 2) (interpolate Numerics.ieee 0x3F000000#32 t0 t1) := by
  obtain ⟨hf0, hv0⟩ := F32.val_half_fmul h0 hbig0
  obtain ⟨hf1, hv1⟩ := F32.val_half_fmul h1 hbig1
  have hround := F32.fadd_roundsTo_sum hf0 hf1
  rw [hv0, hv1, ← add_div] at hround
  rwa [interpolate_ieee, one_sub_half]

theorem sampleAt_midpoint (hi : i < c.n) (h : PhaseInRange c p) (hv : F32.val p = i + 1 / 2)
    (h0 : F32.val (romRead c i) = 0 ∨ (2 : ℚ) ^ (-125 : ℤ) ≤ |F32.val (romRead c i)|)
    (h1 : F32.val (romRead c ((i + 1) % c.n)) = 0 ∨
      (2 : ℚ) ^ (-125 : ℤ) ≤ |F32.val (romRead c ((i + 1) % c.n))|) :
    F32.RoundsTo ((F32.val (romRead c i) + F32.val (romRead c ((i + 1) % c.n))) / 2)
      (sampleAt Numerics.ieee c p) := by
  rw [sampleAt_of_step (lowIndex_of_floor h (by linarith) (by linarith)), weight_midpoint h hv]
  exact interpolate_half_roundsTo (romRead_finite hi) (romRead_succ_finite c i) h0 h1

/-- Every entry of the default table is a zero or large enough for an exact half (20_memory.md R45). -/
theorem romRead_default_halvable (hi : i < 64) : F32.val (romRead Config.default i) = 0 ∨
    (2 : ℚ) ^ (-125 : ℤ) ≤ |F32.val (romRead Config.default i)| := by
  have hf : F32.isFinite (romRead Config.default i) = true := romRead_finite (c := Config.default) hi
  rw [F32.two_le_expo_iff hf, F32.val_eq_zero_iff hf]
  cases hz : F32.isZero (romRead Config.default i) with
  | true => exact .inl rfl
  | false =>
    have hmag := romRead_default_magnitude i hi hz
    have hfields := F32.toNat_eq_fields (romRead Config.default i)
    have hfrac := F32.frac_lt (romRead Config.default i)
    rw [BitVec.extractLsb'_toNat, Nat.shiftRight_zero] at hmag
    exact .inr (by omega)

/-- Settles O34: a legal configuration by `sampleAt_midpoint`, the default one because its entries are large. -/
theorem midpointIsTheRoundedMean : Obligations.MidpointIsTheRoundedMean := by
  refine ⟨?general, fun p i hi hf hv => ?default⟩
  case general =>
    intro c p i hi h hv t0 t1 w
    have hw : w = 0x3F000000#32 := weight_midpoint h hv
    exact ⟨hw, by rw [hw, one_sub_half], sampleAt_midpoint hi h hv⟩
  case default =>
    have hpos : 0 < F32.val p := by rw [hv]; positivity
    have hi' : (i : ℚ) + 1 ≤ 64 := by exact_mod_cast hi
    have h : PhaseInRange Config.default p :=
      phaseInRange_iff_val.2 ⟨hf, F32.sign_of_val_pos hf hpos, by
        rw [hv, show (Config.default.n : ℚ) = 64 from rfl]
        linarith⟩
    exact sampleAt_midpoint (c := Config.default) hi h hv (romRead_default_halvable hi)
      (romRead_default_halvable (Nat.mod_lt _ Config.default.n_pos))

/-! The last table step -/

/-- Settles O35: the indices by the floor, the sum by the exact remainder. -/
theorem lastStepClosesTheCycle : Obligations.LastStepClosesTheCycle := by
  refine fun c => ⟨fun p h hge => ?_, fun s hs hge hlt => ⟨wrap_inRange hs, val_wrap_of_ge hs hge hlt⟩⟩
  have hcast : ((c.n - 1 : ℕ) : ℚ) = c.n - 1 := Nat.cast_pred c.n_pos
  have hlow : lowIndex Numerics.ieee c p = c.n - 1 :=
    lowIndex_of_floor h (by rwa [hcast]) (by rw [hcast]; linarith [h.val_lt])
  have hhigh : highIndex Numerics.ieee c p = 0 := (succIndex_eq_zero_iff c _).2 hlow
  exact ⟨hlow, hhigh, by rw [sampleAt_eq_interpolate, hlow, hhigh]⟩

end Sys2Proof.Machine
end

section
/-!
PROOFS. NEXT as a command: what it does in every state (42_sample_generation.md R140), that a zero increment of either
sign holds the phase (R148), and the phase that is the canonical NaN (R149).
-/

namespace Sys2Proof.Machine

variable {c : Config} {p : F32}

/-! A zero increment -/

/-- A legal phase plus a zero of either sign is the phase: a zero phase has sign 0 (42_sample_generation.md R148). -/
theorem fadd_zero_of_legal {z : F32} (h : PhaseLegal c p) (hz : F32.isZero z = true) : F32.fadd p z = p := by
  rcases h with h | rfl
  · obtain ⟨hf, hs⟩ := h.finite_sign_false
    cases hpz : F32.isZero p with
    | false => exact F32.fadd_isZero hf hpz hz
    | true =>
      have hp : p = F32.zero false := hs ▸ F32.eq_zero_of_isZero hpz
      rw [hp, F32.eq_zero_of_isZero hz, F32.fadd_zero_zero, Bool.false_and]
  · exact F32.fadd_nan (.inl F32.isNaN_cnan)

theorem wrap_of_legal (h : PhaseLegal c p) : Numerics.ieee.wrap c.nf p = p := by
  rcases h with h | rfl
  · exact wrap_of_inRange h
  · exact wrap_of_not_finite c.nf F32.isFinite_cnan

theorem advance_zero_of_legal {z : F32} (h : PhaseLegal c p) (hz : F32.isZero z = true) :
    advance Numerics.ieee c p z = p := by
  rw [advance, Numerics.ieee_fadd, fadd_zero_of_legal h hz, wrap_of_legal h]

/-- NEXT with an increment that does not move the phase writes SAMPLE and emits, nothing else. -/
theorem exec_next_of_fixed_phase {s : State} (h : advance Numerics.ieee s.inst s.phase s.pinc = s.phase) :
    exec .next s = .next { s with
      sample := sampleAt Numerics.ieee s.inst s.phase
      stream := s.stream ++ [sampleAt Numerics.ieee s.inst s.phase] } := by
  rw [exec_next, h]
  rfl

/-- Settles O32: both zeros leave a legal phase where it is. -/
theorem negativeZeroIncrementHoldsPhase : Obligations.NegativeZeroIncrementHoldsPhase := by
  refine ⟨fun c p h => fadd_zero_of_legal h (by decide), fun s h hpinc => ?_⟩
  refine ⟨sampleAt Numerics.ieee s.inst s.phase, exec_next_of_fixed_phase ?_, exec_next_of_fixed_phase ?_⟩
  · exact advance_zero_of_legal h (hpinc ▸ by decide)
  · exact advance_zero_of_legal (z := 0x00000000#32) h (by decide)

/-! NEXT in every state -/

theorem decode_of_valid_op {w : CmdWord} (hvalid : w.getLsbD 33 = true) (hop : w.getLsbD 32 = false) :
    decode w = .next := by
  rw [decode, CmdWord.valid, CmdWord.op, hvalid, hop, if_neg (by decide), if_pos rfl]

/-- The parts of the worked example of 42_sample_generation.md R140 at phase and increment 0.04354…. -/
theorem next_example_parts : advance Numerics.ieee Config.default 0x3D32544A#32 0x3D32544A#32 = 0x3DB2544A#32 ∧
    sampleAt Numerics.ieee Config.default 0x3D32544A#32 = 0x3B8BD5A8#32 := by
  decide +kernel

/-- Settles O10: the general form is `exec_next` read through the definitions of its parts. -/
theorem nextEmitsTheInterpolatedSample : Obligations.NextEmitsTheInterpolatedSample := by
  refine ⟨fun w => decode_of_valid_op, fun s => exec_next s, fun s hinst hphase hpinc => ?_⟩
  obtain ⟨hadvance, hsample⟩ := next_example_parts
  have hnext := exec_next s
  rwa [hinst, hphase, hpinc, hadvance, hsample] at hnext

/-! The NaN phase -/

theorem exec_next_phase_sample (s : State) : ∃ t, exec .next s = .next t ∧
    t.phase = advance Numerics.ieee s.inst s.phase s.pinc ∧ t.sample = sampleAt Numerics.ieee s.inst s.phase :=
  ⟨_, exec_next s, rfl, rfl⟩

/-- What one input that is no reset event adds to the stream: the sample of the phase for a NEXT, else nothing. -/
theorem apply_stream (s : State) {p : Pins} (hr : p.rst = false) : (s.apply p).stream =
    s.stream ++ if p.isNext then [sampleAt Numerics.ieee s.inst s.phase] else [] := by
  have hevent : p.event = .command (decode p.word) := by simp [Pins.event, hr]
  rcases apply_cases s p with ⟨hr', -⟩ | ⟨-, hi, h⟩ | ⟨-, hi, h⟩ | ⟨-, f, hi, h⟩
  · rw [hr] at hr'
    cases hr'
  all_goals simp [h, Pins.isNext, hevent, hi]

/-- From a NaN phase and without a reset event every run keeps the phase and adds one canonical NaN per NEXT. -/
theorem play_of_phase_nan {s : State} (h : s.phase = F32.cnan) {ps : List Pins} (hr : ∀ p ∈ ps, p.rst = false) :
    (s.play ps).phase = F32.cnan ∧
    (s.play ps).stream = s.stream ++ List.replicate (ps.countP Pins.isNext) F32.cnan := by
  induction ps generalizing s with
  | nil => exact ⟨h, (List.append_nil _).symm⟩
  | cons p ps ih =>
    obtain ⟨hp, hps⟩ := List.forall_mem_cons.1 hr
    obtain ⟨hphase, hstream⟩ := ih (phase_nan_stays h hp) hps
    refine ⟨hphase, ?_⟩
    rw [play_cons, hstream, apply_stream s hp, h, sampleAt_cnan, List.countP_cons]
    cases p.isNext with
    | true => simp [List.replicate_succ]
    | false => simp

/-- Settles O21: the poisoning step by `advance_of_not_finite`, the rest of the run by `play_of_phase_nan`. -/
theorem naNPhaseIsStickyUntilReset : Obligations.NaNPhaseIsStickyUntilReset := by
  refine ⟨fun s h hd => ?poison, fun s ps h hr => play_of_phase_nan h hr, fun s f _ => exec_setf f s,
    fun s w _ => ?reset, fun c => ⟨lowIndex_cnan c, highIndex_cnan c⟩⟩
  case poison =>
    obtain ⟨t, ht, hphase, hsample⟩ := exec_next_phase_sample s
    refine ⟨t, ht, hphase.trans (advance_of_not_finite h hd), hsample ▸ sampleAt_finite h, fun v => ?_⟩
    obtain ⟨u, hu, -, husample⟩ := exec_next_phase_sample { s with pinc := v }
    exact ⟨u, hu, husample.trans hsample.symm⟩
  case reset => rw [apply_reset, State.resetEvent_phase]

end Sys2Proof.Machine
end

section
/-!
PROOFS. IDLE (43_idle.md R170): a word without `cmd_valid` decodes to it and leaves a ready block as it is, a block that
is not ready does not look at the word, and inputs that ask for IDLE can be left out of a run.
-/

namespace Sys2Proof

theorem decode_of_not_valid {w : CmdWord} (h : CmdWord.valid w = false) : decode w = .idle := if_pos h

namespace Machine

namespace Clocked

/-- Without a reset the block shows `cmd_ready` exactly when it executes nothing (10_state.md R29). -/
@[simp] theorem cmdReady_eq_free (c : Clocked) (w : CmdWord) : (c.outputs ⟨false, w⟩).cmdReady = c.free :=
  Bool.true_and _

theorem free_strobe (s u : State) (tick : Nat) :
    Clocked.free ⟨s, .strobe u, tick⟩ = Config.readyInStrobe (s.situation tick) := rfl

theorem take_of_not_valid (s : State) (tick : Nat) {w : CmdWord} (h : CmdWord.valid w = false) :
    Clocked.take s tick w = ⟨s, .ready, tick⟩ := if_neg (by simp [h])

/-- A block that is not free does the same at an edge without reset whatever word is presented: only a free block
takes one (10_state.md R29). -/
theorem edge_eq_of_not_free {c : Clocked} (h : c.free = false) (v w : CmdWord) :
    c.edge ⟨false, v⟩ = c.edge ⟨false, w⟩ := by
  obtain ⟨s, act, tick⟩ := c
  cases act with
  | recovering left =>
    cases left with
    | zero => rw [edge_recovering_zero, edge_recovering_zero]
    | succ k => rw [edge_recovering_succ, edge_recovering_succ]
  | ready => cases h
  | busy i left =>
    cases left with
    | zero => rw [edge_busy_zero, edge_busy_zero]
    | succ k => rw [edge_busy_succ, edge_busy_succ]
  | strobe u =>
    rw [free_strobe] at h
    simp [edge_strobe, h]

end Clocked

/-- An input without reset and without `cmd_valid` is an IDLE step and changes nothing. -/
theorem apply_of_not_valid (s : State) {p : Pins} (hr : p.rst = false) (hv : CmdWord.valid p.word = false) :
    s.apply p = s := by
  obtain ⟨rst, w⟩ := p
  subst hr
  rw [apply_command, decode_of_not_valid hv, after_idle]

/-- Inputs that change no state can be left out of a run. -/
theorem play_filter {keep : Pins → Bool} (h : ∀ (s : State) (p : Pins), keep p = false → s.apply p = s)
    (s : State) (ps : List Pins) : s.play (ps.filter keep) = s.play ps := by
  induction ps generalizing s with
  | nil => rfl
  | cons p ps ih =>
    cases hp : keep p with
    | true => rw [List.filter_cons_of_pos hp, play_cons, play_cons, ih]
    | false => rw [List.filter_cons_of_neg (by simp [hp]), play_cons, h s p hp, ih]

end Machine

open Machine

/-- Settles O8: the word by `decode_of_not_valid`, the pins by `edge_eq_of_not_free` and `take_of_not_valid`, the runs
by `play_filter`. -/
theorem idleDoesNothing : Obligations.IdleDoesNothing := by
  refine ⟨exec_idle, ⟨rfl, fun w => decode_of_not_valid⟩, fun c w hready => ?unaccepted, fun s tick w p hv => ?ready,
    play_filter fun s p hkeep => ?removable⟩
  case unaccepted =>
    rw [Clocked.cmdReady_eq_free] at hready
    exact Clocked.edge_eq_of_not_free hready w 0#34
  case ready =>
    rw [Clocked.edge_ready, Clocked.take_of_not_valid s tick hv]
    exact ⟨rfl, Clocked.sampleValid_of_ready s tick p⟩
  case removable =>
    obtain ⟨hr, hv⟩ := Bool.or_eq_false_iff.1 hkeep
    exact apply_of_not_valid s hr hv

end Sys2Proof
end

section
/-!
Every command and every step answers a next state (60_exceptions.md section 1): the state is named by the laws of `exec`
and `step`, so nothing faults and nothing is refused.
-/

namespace Sys2Proof

open Machine

/-- Settles O6: `exec_eq_after` names the state a command answers, `step_eq_apply` the one a step answers. -/
theorem everyCommandAndStepCompletes : Obligations.EveryCommandAndStepCompletes :=
  ⟨fun i s => ⟨s.after i, exec_eq_after i s⟩, fun s => ⟨s.fetch.2.apply s.fetch.1, step_eq_apply s⟩⟩

end Sys2Proof
end

section
/-!
PROOFS. Every NaN result is the canonical one (40_numerics.md R93), and the invariant of a run (10_state.md section 1):
it holds at reset and every input keeps it.
-/

namespace Sys2Proof.Machine

/-! The canonical NaN -/

theorem nanCanonical_cnan : NaNCanonical F32.cnan := fun _ => rfl

theorem nanCanonical_of_not_nan {v : F32} (h : F32.isNaN v = false) : NaNCanonical v := fun hv => by
  rw [h] at hv
  cases hv

theorem nanCanonical_of_finite {v : F32} (h : F32.isFinite v = true) : NaNCanonical v :=
  nanCanonical_of_not_nan (F32.isNaN_of_finite h)

theorem nanCanonical_of_isInf {v : F32} (h : F32.isInf v = true) : NaNCanonical v :=
  nanCanonical_of_not_nan (F32.isNaN_of_isInf h)

theorem nanCanonical_inf (s : Bool) : NaNCanonical (F32.inf s) :=
  nanCanonical_of_isInf (by cases s <;> decide)

theorem nanCanonical_zero (s : Bool) : NaNCanonical (F32.zero s) :=
  nanCanonical_of_finite (F32.isFinite_of_isZero (F32.isZero_zero s))

theorem nanCanonical_round32 {x : F32.Exact} (s0 : Bool) (hd : 0 < x.den) : NaNCanonical (F32.round32 x s0) :=
  nanCanonical_of_not_nan (F32.isNaN_round32 x s0 hd)

theorem nanCanonical_fadd (a b : F32) : NaNCanonical (F32.fadd a b) := by
  unfold F32.fadd
  split_ifs with hnan hinf hsign hinfa hinfb
  · exact nanCanonical_cnan
  · exact nanCanonical_of_isInf (Bool.and_eq_true_iff.1 hinf).1
  · exact nanCanonical_cnan
  · exact nanCanonical_of_isInf hinfa
  · exact nanCanonical_of_isInf hinfb
  · dsimp only
    split
    · exact nanCanonical_zero _
    · exact nanCanonical_round32 (x := .ofInt _) _ Nat.one_pos

theorem nanCanonical_fsub (a b : F32) : NaNCanonical (F32.fsub a b) := by
  unfold F32.fsub
  split
  · exact nanCanonical_cnan
  · exact nanCanonical_fadd a (F32.neg b)

theorem nanCanonical_fmul (a b : F32) : NaNCanonical (F32.fmul a b) := by
  unfold F32.fmul
  split_ifs
  · exact nanCanonical_cnan
  · exact nanCanonical_cnan
  · exact nanCanonical_inf _
  · exact nanCanonical_round32 _ (by positivity)

theorem nanCanonical_fdiv (a b : F32) : NaNCanonical (F32.fdiv a b) := by
  unfold F32.fdiv
  split_ifs with hnan hinfa hinfab hinfb hzero hzeroa
  · exact nanCanonical_cnan
  · exact nanCanonical_cnan
  · exact nanCanonical_inf _
  · exact nanCanonical_zero _
  · exact nanCanonical_cnan
  · exact nanCanonical_inf _
  · exact nanCanonical_round32 _ (F32.units_pos (Bool.eq_false_of_not_eq_true hzero))

theorem nanCanonical_frem_nf (c : Config) (a : F32) : NaNCanonical (F32.frem a c.nf) := by
  cases ha : F32.isFinite a with
  | false =>
    rw [F32.frem_of_not_finite c.nf ha]
    exact nanCanonical_cnan
  | true => exact nanCanonical_of_finite (F32.frem_exact ha c.nf_finite c.nf_not_zero).1

theorem wrap_of_nan (c : Config) {a : F32} (h : F32.isNaN a = true) : Numerics.ieee.wrap c.nf a = F32.cnan := by
  refine wrap_of_not_finite c.nf (Bool.eq_false_of_not_eq_true fun hf => ?_)
  rw [F32.isNaN_of_finite hf] at h
  cases h

theorem nanCanonical_wrap (c : Config) (a : F32) : NaNCanonical (Numerics.ieee.wrap c.nf a) := by
  cases ha : F32.isFinite a with
  | false =>
    rw [wrap_of_not_finite c.nf ha]
    exact nanCanonical_cnan
  | true => exact nanCanonical_of_finite (wrap_inRange ha).finite_sign_false.1

/-- Settles O47, operation by operation. -/
theorem onlyTheCanonicalNaN : Obligations.OnlyTheCanonicalNaN := by
  intro c a b
  exact ⟨fun h => ⟨F32.fadd_nan h, F32.fsub_nan h, F32.fmul_nan h, F32.fdiv_nan h, F32.frem_nan h⟩,
    fun h => ⟨F32.pred_nan h, wrap_of_nan c h⟩, nanCanonical_fadd a b, nanCanonical_fsub a b,
    nanCanonical_fmul a b, nanCanonical_fdiv a b, nanCanonical_frem_nf c a, nanCanonical_wrap c a⟩

/-! The invariant -/

theorem nanCanonical_increment (c : Config) (f : F32) : NaNCanonical (increment Numerics.ieee c f) :=
  nanCanonical_fdiv _ _

/-- The sample of a legal phase is legal: bounded by the interpolator, or the canonical NaN of the canonical NaN
(42_sample_generation.md R143, R149). -/
theorem sampleAt_legal {c : Config} {p : F32} (h : PhaseLegal c p) : SampleLegal (sampleAt Numerics.ieee c p) := by
  rcases h with h | rfl
  · obtain ⟨-, -, -, -, -, -, -, -, -, hfinite, hval⟩ := interpolatedSampleIsBounded c p h
    refine .inl ⟨hfinite, ?_⟩
    have htwo : (2 : ℚ) = (2 * 2 ^ 149 : ℕ) * 2 ^ (-149 : ℤ) := by norm_num
    rw [F32.abs_val hfinite] at hval
    exact Nat.cast_le.1 (le_of_mul_le_mul_right (hval.trans_eq htwo) (by positivity))
  · exact .inr (sampleAt_cnan c)

theorem nanCanonical_pzero : NaNCanonical 0x00000000#32 := nanCanonical_of_finite (by decide)

theorem sampleLegal_pzero : SampleLegal 0x00000000#32 := .inl (by decide)

theorem inv_reset (c : Config) : State.Inv { State.reset with inst := c } :=
  ⟨.inl (phaseInRange_zero c), nanCanonical_pzero, sampleLegal_pzero, by simp [State.reset]⟩

/-- Every input keeps the invariant: a reset event re-establishes it, NEXT writes a legal phase and a legal sample,
SETF a quotient, IDLE nothing. -/
theorem apply_inv {s : State} (h : s.Inv) (p : Pins) : (s.apply p).Inv := by
  obtain ⟨hphase, hpinc, hsample, hstream⟩ := h
  rcases apply_cases s p with ⟨-, hp⟩ | ⟨-, -, hp⟩ | ⟨-, -, hp⟩ | ⟨-, f, -, hp⟩ <;> rw [hp]
  · exact ⟨.inl (phaseInRange_zero _), nanCanonical_pzero, sampleLegal_pzero, hstream⟩
  · exact ⟨hphase, hpinc, hsample, hstream⟩
  · have hlegal := sampleAt_legal hphase
    refine ⟨advance_legal hphase _, hpinc, hlegal, fun v hv => ?_⟩
    rcases List.mem_append.1 hv with hv | hv
    · exact hstream v hv
    · rw [List.mem_singleton.1 hv]
      exact hlegal
  · exact ⟨hphase, nanCanonical_increment _ f, hsample, hstream⟩

/-- The invariant does not speak of the inputs still to come. -/
theorem fetch_inv {s : State} (h : s.Inv) : s.fetch.2.Inv := by
  rw [State.fetch_snd]
  exact h

/-- Settles O17: +0.0 is a legal phase, increment and sample (`inv_reset`). -/
theorem invariantHoldsAtReset : Obligations.InvariantHoldsAtReset :=
  ⟨inv_reset Config.default, inv_reset⟩

/-- Settles O18: a step is one input applied (`step_eq_apply`), and every input keeps the invariant. -/
theorem everyStepKeepsTheInvariant : Obligations.EveryStepKeepsTheInvariant := by
  intro s t h hstep
  rw [step_eq_apply] at hstep
  injection hstep with hstep
  rw [← hstep]
  exact apply_inv (fetch_inv h) _

end Sys2Proof.Machine
end

section
/-!
PROOFS. The pins' view refines the architecture (10_state.md sections 1 and 2, 60_exceptions.md section 3): a simulation
relation between the block in a clock cycle and what its consumer has counted, kept by every edge.
-/

namespace Sys2Proof.Machine

/-! What the consumer learns, by the two strobes -/

namespace Watch

/-- With `cmd_ready = 1` the pending command is done, and a valid word becomes the pending one (10_state.md R29). -/
theorem see_of_cmdReady (k : Watch) (w : CmdWord) {o : Outputs} (h : o.cmdReady = true) : k.see ⟨false, w⟩ o =
    ⟨k.done ++ k.pending.toList.map Pins.present, if CmdWord.valid w then some w else none⟩ := by
  rw [see_command, settle, h]
  cases CmdWord.valid w <;> rfl

theorem see_of_not_cmdReady (k : Watch) (w : CmdWord) {o : Outputs} (h : o.cmdReady = false) :
    k.see ⟨false, w⟩ o = k.settle o := by
  rw [see_command, h, Bool.false_and, if_neg (by decide)]

/-- Without a strobe nothing is learned. -/
theorem settle_of_no_strobe (k : Watch) {o : Outputs} (hr : o.cmdReady = false) (hv : o.sampleValid = false) :
    k.settle o = k := by
  rw [settle, hr, hv, Bool.false_or, if_neg (by decide)]

end Watch

/-! The simulation relation -/

/-- The block `c` and its consumer `k` agree on a run from `s`, one case for each thing the block can be doing: the
registers are those of the steps the consumer is certain of, and the accepted word that the consumer has not yet seen
executed is the one in execution. Only a command other than NEXT can have been executed unseen. -/
inductive Follows (s : State) : Clocked → Watch → Prop where
  | recovering (done : List Pins) (tick left : Nat) :
    Follows s ⟨s.play done, .recovering left, tick⟩ ⟨done, none⟩
  | ready (done : List Pins) (tick : Nat) : Follows s ⟨s.play done, .ready, tick⟩ ⟨done, none⟩
  | executed (done : List Pins) (tick : Nat) (w : CmdWord) (h : decode w ≠ .next) :
    Follows s ⟨(s.play done).after (decode w), .ready, tick⟩ ⟨done, some w⟩
  | busy (done : List Pins) (tick left : Nat) (w : CmdWord) :
    Follows s ⟨s.play done, .busy (decode w) left, tick⟩ ⟨done, some w⟩
  | strobe (done : List Pins) (tick : Nat) (w : CmdWord) (h : decode w = .next) :
    Follows s ⟨s.play done, .strobe ((s.play done).after .next), tick⟩ ⟨done, some w⟩

variable {s : State} {c : Clocked} {k : Watch}

/-- A command other than NEXT leaves no trace behind a reset event: it emits nothing and the registers are cleared. -/
theorem resetEvent_after (s : State) {i : Instr} (h : i ≠ .next) : (s.after i).resetEvent = s.resetEvent := by
  cases i with
  | idle => rfl
  | next => exact absurd rfl h
  | setf f => rfl

theorem Follows.regs_eq_play_steps (h : Follows s c k) : c.regs = s.play (c.steps k) := by
  cases h with
  | recovering done tick left => rfl
  | ready done tick => exact congrArg s.play (List.append_nil done).symm
  | executed done tick w hw => exact (play_append s done [Pins.present w]).symm
  | busy done tick left w => rfl
  | strobe done tick w hw => rfl

theorem Follows.regs_resetEvent (h : Follows s c k) : c.regs.resetEvent = (s.play k.done).resetEvent := by
  cases h with
  | executed done tick w hw => exact resetEvent_after _ hw
  | _ => rfl

/-! Every edge keeps it -/

theorem Clocked.complete_of_not_next (s : State) (tick : Nat) {i : Instr} (h : i ≠ .next) :
    Clocked.complete i s tick = ⟨s.after i, .ready, tick⟩ := by
  cases i with
  | idle => rfl
  | next => exact absurd rfl h
  | setf f => rfl

theorem follows_complete (s : State) (done : List Pins) (tick : Nat) (w : CmdWord) :
    Follows s (Clocked.complete (decode w) (s.play done) tick) ⟨done, some w⟩ := by
  by_cases h : decode w = .next
  · rw [h]
    exact .strobe done tick w h
  · rw [Clocked.complete_of_not_next _ _ h]
    exact .executed done tick w h

/-- A free block and its consumer agree on whether the presented word was accepted. -/
theorem follows_take (s : State) (done : List Pins) (tick : Nat) (w : CmdWord) :
    Follows s (Clocked.take (s.play done) tick w) ⟨done, if CmdWord.valid w then some w else none⟩ := by
  rcases Clocked.take_cases (s.play done) tick w with ⟨hv, h⟩ | ⟨hv, -, h⟩ | ⟨hv, left, -, h⟩ <;> rw [hv, h]
  · exact .ready done tick
  · exact follows_complete s done (tick + 1) w
  · exact .busy done (tick + 1) left w

theorem Follows.edge_reset (h : Follows s c k) (w : CmdWord) (o : Outputs) :
    Follows s (c.edge ⟨true, w⟩) (k.see ⟨true, w⟩ o) := by
  have hplay : s.play (k.done ++ [⟨true, w⟩]) = (s.play k.done).resetEvent := by
    rw [play_append, play_cons, apply_reset, play_nil]
  rw [Clocked.edge_reset, Watch.see_reset, h.regs_resetEvent, ← hplay]
  exact .recovering _ _ _

/-- At an edge without reset the consumer stays in step. -/
theorem Follows.edge_command (h : Follows s c k) (w : CmdWord) :
    Follows s (c.edge ⟨false, w⟩) (k.see ⟨false, w⟩ (c.outputs ⟨false, w⟩)) := by
  cases h with
  | recovering done tick left =>
    rw [Watch.see_of_not_cmdReady _ _ rfl, Watch.settle_of_no_strobe _ rfl rfl]
    cases left with
    | zero => exact .ready done tick
    | succ left => exact .recovering done tick left
  | ready done tick =>
    rw [Watch.see_of_cmdReady _ _ rfl, Clocked.edge_ready]
    simpa using follows_take s done tick w
  | executed done tick v hv =>
    rw [Watch.see_of_cmdReady _ _ rfl, Clocked.edge_ready]
    simpa using follows_take s (done ++ [Pins.present v]) tick w
  | busy done tick left v =>
    rw [Watch.see_of_not_cmdReady _ _ rfl, Watch.settle_of_no_strobe _ rfl rfl]
    cases left with
    | zero => exact follows_complete s done tick v
    | succ left => exact .busy done tick left v
  | strobe done tick v hv =>
    have hplay : (s.play done).after .next = s.play (done ++ [Pins.present v]) := by
      rw [play_append, play_cons, apply_present, hv, play_nil]
    rw [Clocked.edge_strobe]
    split
    case isTrue hready =>
      rw [Watch.see_of_cmdReady _ _ hready, hplay]
      exact follows_take s (done ++ [Pins.present v]) tick w
    case isFalse hready =>
      rw [Watch.see_of_not_cmdReady _ _ (Bool.eq_false_of_not_eq_true hready), Watch.settle_strobe, hplay]
      exact .ready (done ++ [Pins.present v]) tick

/-! The sample stream -/

theorem complete_regs_stream (i : Instr) (s : State) (tick : Nat) :
    (Clocked.complete i s tick).regs.stream = s.stream := by
  cases i <;> rfl

theorem take_regs_stream (s : State) (tick : Nat) (w : CmdWord) : (Clocked.take s tick w).regs.stream = s.stream := by
  rcases Clocked.take_cases s tick w with ⟨-, h⟩ | ⟨-, -, h⟩ | ⟨-, left, -, h⟩ <;> rw [h]
  exact complete_regs_stream _ s _

theorem after_next_stream (s : State) : (s.after .next).stream = s.stream ++ [(s.after .next).sample] := by
  simp only [after_next, State.emit_stream, State.writeSample_stream, State.writePhase_stream, State.emit_sample,
    State.writeSample_sample]

/-- What the consumer has heard at the end of a cycle, after `heard` before it. -/
def hear (heard : List F32) (o : Outputs) : List F32 := if o.sampleValid then heard ++ [o.sampleData] else heard

theorem hear_append (before heard : List F32) (o : Outputs) : hear (before ++ heard) o = before ++ hear heard o := by
  unfold hear
  split
  · exact List.append_assoc ..
  · rfl

/-- The stream of the registers grows exactly in the cycles with `sample_valid = 1`, by `sample_data`. -/
theorem Follows.edge_stream (h : Follows s c k) (p : Pins) :
    (c.edge p).regs.stream = hear c.regs.stream (c.outputs p) := by
  obtain ⟨rst, w⟩ := p
  cases rst with
  | true => rfl
  | false =>
    cases h with
    | recovering done tick left => cases left <;> rfl
    | ready done tick => exact take_regs_stream _ tick w
    | executed done tick v hv => exact take_regs_stream _ tick w
    | busy done tick left v =>
      cases left with
      | zero => exact complete_regs_stream (decode v) _ tick
      | succ left => rfl
    | strobe done tick v hv =>
      rw [Clocked.edge_strobe, Clocked.outputs_strobe, hear, if_pos rfl, ← after_next_stream]
      split
      · exact take_regs_stream _ tick w
      · rfl

theorem Follows.edge (h : Follows s c k) (p : Pins) : Follows s (c.edge p) (k.see p (c.outputs p)) := by
  obtain ⟨rst, w⟩ := p
  cases rst with
  | true => exact h.edge_reset w _
  | false => exact h.edge_command w

/-- A whole run keeps the consumer in step and lets it hear the whole stream. -/
theorem Follows.run (h : Follows s c k) {heard : List F32} (hheard : c.regs.stream = s.stream ++ heard)
    (ps : List Pins) :
    Follows s (c.run k heard ps).1 (c.run k heard ps).2.1 ∧
    (c.run k heard ps).1.regs.stream = s.stream ++ (c.run k heard ps).2.2 := by
  induction ps generalizing c k heard with
  | nil => exact ⟨h, hheard⟩
  | cons p ps ih => exact ih (h.edge p) (by rw [h.edge_stream p, hheard, hear_append]; rfl)

/-- Settles O57: every edge keeps `Follows`, which says what the registers are at the end of the run. -/
theorem pinsRunRefinesTheArchitecture : Obligations.PinsRunRefinesTheArchitecture := by
  intro s tick ps
  obtain ⟨hfollows, hstream⟩ := (Follows.ready (s := s) [] tick).run (List.append_nil _).symm ps
  exact ⟨hfollows.regs_eq_play_steps, hstream⟩

end Sys2Proof.Machine
end

section
/-!
PROOFS. The handshake (10_state.md section 2, 70_reset_and_hazards.md): what acceptance needs, what a reset event
abandons, and that the block becomes free again.
-/

namespace Sys2Proof.Machine

/-- Settles O58: a block that is not free does not look at the word (`edge_eq_of_not_free`). -/
theorem unacceptedWordsAreForgotten : Obligations.UnacceptedWordsAreForgotten := by
  refine fun c w v => ⟨fun hready => ?forgotten, fun p => ?acceptance⟩
  case forgotten =>
    rw [Clocked.cmdReady_eq_free] at hready
    exact Clocked.edge_eq_of_not_free hready w v
  case acceptance => simp [Clocked.accepts, CmdWord.valid, and_assoc]

namespace Clocked

/-- In the cycles after a reset event neither strobe is 1, and the port shows SAMPLE (70_reset_and_hazards.md R200). -/
theorem outputs_recovering (s : State) (left tick : Nat) (p : Pins) :
    Clocked.outputs ⟨s, .recovering left, tick⟩ p = ⟨false, false, s.sample⟩ := by
  simp [outputs, free]

end Clocked

/-- Settles O59: whatever the block is doing, the edge drops it (`edge_reset`), a NEXT in its strobe cycle included. -/
theorem resetAbandonsTheCommand : Obligations.ResetAbandonsTheCommand := by
  intro c w p
  obtain ⟨hready, hvalid⟩ := c.outputs_reset w
  rw [Clocked.edge_reset, Clocked.outputs_recovering]
  exact ⟨hready, hvalid, rfl, rfl, rfl, rfl⟩

/-- How many edges without reset it can take at most until the block is free. -/
def Activity.distance : Activity → Nat
  | .ready => 0
  | .strobe _ => 1
  | .recovering left => left + 1
  | .busy _ left => left + 2

namespace Clocked

theorem free_of_distance_zero {c : Clocked} (h : c.act.distance = 0) : c.free = true := by
  obtain ⟨s, act, tick⟩ := c
  cases act with
  | ready => rfl
  | _ => cases h

/-- Each edge without reset brings a block that is not free nearer to it: latencies are finite
(70_reset_and_hazards.md R212). -/
theorem distance_edge_lt {c : Clocked} (h : c.free = false) (w : CmdWord) :
    (c.edge ⟨false, w⟩).act.distance < c.act.distance := by
  obtain ⟨s, act, tick⟩ := c
  cases act with
  | ready => cases h
  | recovering left => cases left <;> exact Nat.lt_succ_self _
  | busy i left =>
    cases left with
    | zero =>
      cases i with
      | idle => exact Nat.two_pos
      | next => exact Nat.one_lt_two
      | setf f => exact Nat.two_pos
    | succ left => exact Nat.lt_succ_self _
  | strobe u =>
    rw [free_strobe] at h
    rw [edge_strobe, h]
    exact Nat.one_pos

/-- As many edges as the distance are enough, whatever is presented at them. -/
theorem exists_free {c : Clocked} {ws : List CmdWord} (h : c.act.distance ≤ ws.length) :
    ∃ k : Nat, k ≤ ws.length ∧ ((ws.take k).foldl (fun d w => d.edge ⟨false, w⟩) c).free = true := by
  induction ws generalizing c with
  | nil => exact ⟨0, le_refl _, free_of_distance_zero (Nat.le_zero.1 h)⟩
  | cons w ws ih =>
    cases hfree : c.free with
    | true => exact ⟨0, Nat.zero_le _, hfree⟩
    | false =>
      have hlt := distance_edge_lt hfree w
      rw [List.length_cons] at h
      obtain ⟨k, hk, hkfree⟩ := ih (c := c.edge ⟨false, w⟩) (by omega)
      exact ⟨k + 1, Nat.succ_le_succ hk, hkfree⟩

end Clocked

/-- Settles O60: the bound is the distance of the block's activity. -/
theorem readyReturnsInFiniteTime : Obligations.ReadyReturnsInFiniteTime :=
  fun c => ⟨c.act.distance, fun _ hlength => hlength ▸ Clocked.exists_free hlength.ge⟩

end Sys2Proof.Machine
end

section
/-!
PROOFS. Words and steps: the opcode map (30_encoding.md R73, R74), one step and a run over a list of inputs
(00_scope.md section 5), and what each command reads and writes (10_state.md R30).
-/

namespace Sys2Proof

/-! The opcode map -/

/-- What the two selecting bits leave of a word. -/
theorem CmdWord.and_select (w : CmdWord) : w &&& 0x300000000#34 =
    (if CmdWord.valid w then 0x200000000#34 else 0#34) ||| (if CmdWord.op w then 0x100000000#34 else 0#34) := by
  have hmask : (0x300000000#34 : CmdWord) = BitVec.twoPow 34 33 ||| BitVec.twoPow 34 32 := by decide
  rw [hmask, BitVec.and_or_distrib_left, BitVec.and_twoPow, BitVec.and_twoPow]
  rfl

theorem selects_idle (w : CmdWord) : OpcodeRow.idle.selects w = !CmdWord.valid w := by
  have hand : w &&& 0x200000000#34 = if CmdWord.valid w then 0x200000000#34 else 0#34 := BitVec.and_twoPow w 33
  rw [OpcodeRow.selects, OpcodeRow.idle, hand]
  cases CmdWord.valid w <;> decide

theorem selects_next (w : CmdWord) : OpcodeRow.next.selects w = (CmdWord.valid w && !CmdWord.op w) := by
  rw [OpcodeRow.selects, OpcodeRow.next, CmdWord.and_select]
  cases CmdWord.valid w <;> cases CmdWord.op w <;> decide

theorem selects_setf (w : CmdWord) : OpcodeRow.setf.selects w = (CmdWord.valid w && CmdWord.op w) := by
  rw [OpcodeRow.selects, OpcodeRow.setf, CmdWord.and_select]
  cases CmdWord.valid w <;> cases CmdWord.op w <;> decide

/-- Settles O2: the rows look at the two selecting bits, as the decoder does. -/
theorem opcodeRowsPartitionTheWords : Obligations.OpcodeRowsPartitionTheWords := by
  intro w
  change _ ∧ _ ∧ (_ ↔ decode w = .setf (CmdWord.data w)) ∧ _
  rw [selects_idle, selects_next, selects_setf]
  rcases decode_cases w with ⟨hvalid, hdec, -⟩ | ⟨hvalid, hop, hdec, -⟩ | ⟨hvalid, hop, hdec, -⟩
  · simp [hvalid, hdec]
  · simp [hvalid, hop, hdec]
  · simp [hvalid, hop, hdec]

/-- Settles O4, by evaluation. -/
theorem listedWordsDecode : Obligations.ListedWordsDecode := by
  unfold Obligations.ListedWordsDecode
  decide

namespace Machine

/-! One step -/

theorem step_command {s : State} {rest : List Pins} {w : CmdWord} (h : s.inputs = ⟨false, w⟩ :: rest) :
    step s = exec (decode w) { s with inputs := rest } := by
  rw [step_eq_apply, State.fetch_cons s h, apply_command, exec_eq_after]

theorem step_reset {s : State} {rest : List Pins} {w : CmdWord} (h : s.inputs = ⟨true, w⟩ :: rest) :
    step s = .next (State.resetEvent { s with inputs := rest }) := by
  rw [step_eq_apply, State.fetch_cons s h, apply_reset]

theorem step_no_input {s : State} (h : s.inputs = []) : step s = exec .idle s := by
  rw [step_eq_apply, State.fetch_nil s h, exec_idle,
    apply_of_not_valid s (p := Pins.quiet) rfl (by decide)]

/-- Settles O5, one lemma per kind of input. -/
theorem stepRunsTheDecodedCommand : Obligations.StepRunsTheDecodedCommand :=
  ⟨fun _ _ _ => step_command, fun _ _ _ => step_reset, fun _ => step_no_input⟩

/-- Settles O3: such words decode to the same command, and a step sees no more of them. -/
theorem ignoredBitsHaveNoEffect : Obligations.IgnoredBitsHaveNoEffect := by
  intro s rest w v h
  have hdec : decode w = decode v := by
    rcases h with ⟨hw, hv⟩ | ⟨hw33, hv33, hw32, hv32⟩
    · rw [decode_of_not_valid hw, decode_of_not_valid hv]
    · rw [decode_of_valid_op hw33 hw32, decode_of_valid_op hv33 hv32]
  rw [step_command rfl, step_command rfl, hdec]

/-! A run over all inputs -/

/-- The state with other inputs to come. -/
def State.withInputs (s : State) (l : List Pins) : State := { s with inputs := l }

theorem State.withInputs_withInputs (s : State) (l l' : List Pins) :
    (s.withInputs l).withInputs l' = s.withInputs l' := rfl

/-- What an input does depends on no input behind it. -/
theorem apply_withInputs (s : State) (p : Pins) (l : List Pins) :
    (s.withInputs l).apply p = (s.apply p).withInputs l := by
  obtain ⟨rst, w⟩ := p
  cases rst with
  | true => rfl
  | false =>
    rw [apply_command, apply_command]
    cases decode w <;> rfl

theorem step_of_inputs {s : State} {p : Pins} {ps : List Pins} (h : s.inputs = p :: ps) :
    step s = .next ((s.apply p).withInputs ps) := by
  rw [step_eq_apply, State.fetch_cons s h, ← apply_withInputs]
  rfl

theorem run_succ {s t : State} (k : Nat) (h : step s = .next t) :
    Sys2Proof.core.run (k + 1) s = Sys2Proof.core.run k t := by
  have hstep : Sys2Proof.core.step s = .next t := h
  simp only [Host.Core.run, hstep]

theorem run_inputs {s : State} {ps : List Pins} (h : s.inputs = ps) :
    Sys2Proof.core.run ps.length s = .next ((s.withInputs []).play ps) := by
  induction ps generalizing s with
  | nil => exact congrArg Host.Outcome.next (congrArg s.withInputs h)
  | cons p ps ih =>
    rw [List.length_cons, run_succ _ (step_of_inputs h), ih rfl, State.withInputs_withInputs, play_cons,
      apply_withInputs]

/-- Settles O7, by induction on the inputs. -/
theorem runPlaysTheInputs : Obligations.RunPlaysTheInputs := fun _ => run_inputs rfl

/-! Reads and writes -/

/-- Settles O11: each write is named by its law (`after_setf`, `after_next`, `apply_reset`), and its value by the
registers it reads. -/
theorem commandsTouchOnlyTheirRegisters : Obligations.CommandsTouchOnlyTheirRegisters := by
  intro s t hinst
  simp only [apply_command, decode_encode, after_idle, after_setf, after_next, apply_reset]
  refine ⟨trivial, fun f => ⟨rfl, ?setf⟩, ⟨rfl, fun hphase => ?sample, fun hphase hpinc => ?phase⟩,
    fun w => ⟨rfl, rfl, rfl, rfl⟩⟩
  case setf => rw [State.writePinc_pinc, State.writePinc_pinc, hinst]
  case sample => simp only [State.emit_sample, State.writeSample_sample, hinst, hphase]
  case phase => simp only [State.emit_phase, State.writeSample_phase, State.writePhase_phase, hinst, hphase, hpinc]

/-- Settles O14: each field of `State.reset` as its definition writes it. -/
theorem resetStateIsAllZero : Obligations.ResetStateIsAllZero := ⟨rfl, rfl, rfl, rfl⟩

/-- Settles O13: an upper index is the lower one plus one modulo `N`. -/
theorem romReadsTheTableCyclically : Obligations.RomReadsTheTableCyclically := by
  refine fun c => ⟨fun i hi => ?entry, fun j => ?period, fun p => ?successor⟩
  case entry => rw [romRead_eq_getElem c hi, List.getElem?_eq_getElem]
  case period => rw [romCyclic, romCyclic, Nat.add_mod_right]
  case successor => rw [highIndex_eq_mod, romCyclic]

end Machine

end Sys2Proof
end

section
/-!
PROOFS. Runs of NEXT: one sample each (10_state.md section 3), taken before the advance (42_sample_generation.md R145),
and a phase that stays in the table (R153).
-/

namespace Sys2Proof.Machine

/-- One input adds one sample to the stream if it is an accepted NEXT, else none; it recalls none. -/
theorem apply_stream_append (s : State) (p : Pins) :
    ∃ new : List F32, (s.apply p).stream = s.stream ++ new ∧ new.length = if p.isNext then 1 else 0 := by
  cases hr : p.rst with
  | true =>
    have hevent : p.event = .reset := by simp [Pins.event, hr]
    refine ⟨[], ?_, ?_⟩
    · simp [State.apply, hevent, applyEvent]
    · rw [Pins.isNext, hevent]
      rfl
  | false =>
    refine ⟨_, apply_stream s hr, ?_⟩
    cases p.isNext <;> rfl

/-- Settles O22, by induction on the inputs. -/
theorem oneSamplePerNext : Obligations.OneSamplePerNext := by
  intro s ps
  induction ps generalizing s with
  | nil => exact ⟨[], (List.append_nil _).symm, rfl⟩
  | cons p ps ih =>
    obtain ⟨first, hfirst, hone⟩ := apply_stream_append s p
    obtain ⟨rest, hrest, hcount⟩ := ih (s.apply p)
    refine ⟨first ++ rest, ?_, ?_⟩
    · rw [play_cons, hrest, hfirst, List.append_assoc]
    · rw [List.length_append, hone, hcount, List.countP_cons, Nat.add_comm]

/-- The phase after `j` advances by the increment `d`. -/
def phaseAfter (c : Config) (p d : F32) (j : Nat) : F32 := (fun q => advance Numerics.ieee c q d)^[j] p

theorem phaseAfter_succ (c : Config) (p d : F32) (j : Nat) :
    phaseAfter c p d (j + 1) = advance Numerics.ieee c (phaseAfter c p d j) d :=
  Function.iterate_succ_apply' _ j p

/-- `k` NEXT in a row: `k` advances, and the samples of the phases before each (42_sample_generation.md R145). -/
theorem play_next_replicate (s : State) (k : Nat) :
    (s.play (List.replicate k (Pins.present (encode .next)))).phase = phaseAfter s.inst s.phase s.pinc k ∧
    (s.play (List.replicate k (Pins.present (encode .next)))).pinc = s.pinc ∧
    (s.play (List.replicate k (Pins.present (encode .next)))).stream =
      s.stream ++ (List.range k).map fun j => sampleAt Numerics.ieee s.inst (phaseAfter s.inst s.phase s.pinc j) := by
  induction k with
  | zero => exact ⟨rfl, rfl, (List.append_nil _).symm⟩
  | succ k ih =>
    obtain ⟨hphase, hpinc, hstream⟩ := ih
    have hinst := play_inst s (List.replicate k (Pins.present (encode .next)))
    rw [List.replicate_succ', play_append, play_cons, play_nil, apply_present, decode_encode, after_next]
    refine ⟨?_, hpinc, ?_⟩
    · rw [State.emit_phase, State.writeSample_phase, State.writePhase_phase, hinst, hphase, hpinc, phaseAfter_succ]
    · rw [State.emit_stream, State.writeSample_stream, State.writePhase_stream, hinst, hphase, hstream,
        List.range_succ, List.map_append, List.map_singleton, List.append_assoc]

/-- The advance depends on the configuration through `N` alone: not on the ROM. -/
theorem advance_congr {c c' : Config} (h : c.n = c'.n) (p d : F32) :
    advance Numerics.ieee c p d = advance Numerics.ieee c' p d := by
  rw [advance, advance, Config.nf, Config.nf, h]

/-- Settles O24, by `play_next_replicate`; a sample is a function of the ROM and the phase. -/
theorem sampleComesBeforeTheAdvance : Obligations.SampleComesBeforeTheAdvance := by
  refine ⟨fun s k => ?run, fun s v => ?noIncrement, fun s c hn => ?noRom⟩
  case run =>
    obtain ⟨hphase, -, hstream⟩ := play_next_replicate s k
    exact ⟨hphase, hstream⟩
  case noIncrement => simp only [after_next, State.emit_sample, State.writeSample_sample]
  case noRom =>
    simp only [after_next, State.emit_phase, State.writeSample_phase, State.writePhase_phase]
    exact advance_congr hn _ _

theorem phaseAfter_inRange {c : Config} {p d : F32} (hp : PhaseInRange c p) (hd : F32.isFinite d = true) (j : Nat) :
    PhaseInRange c (phaseAfter c p d j) := by
  induction j with
  | zero => exact hp
  | succ j ih =>
    rw [phaseAfter_succ]
    exact advance_inRange ih hd

/-- The example of R153: `1e-10` is below half a spacing of 1.0, so that it is absorbed. -/
theorem advance_absorbs : advance Numerics.ieee Config.default 0x3F800000#32 0x2EDBE6FF#32 = 0x3F800000#32 := by
  decide +kernel

/-- Settles O20: each advance by a finite increment stays in `[0, N)`. -/
theorem longRunPhaseStability : Obligations.LongRunPhaseStability := by
  refine ⟨fun s m hp hd => ?_, advance_absorbs⟩
  rw [(play_next_replicate s m).1]
  exact phaseAfter_inRange hp hd m

end Sys2Proof.Machine
end

section
/-!
PROOFS. Magnitudes: the low 31 bits of patterns order them as their units (40_numerics.md R91), which gives the range of
a legal table entry (00_scope.md R7) and the overflow bound of SETF (41_frequency_control.md R131); the conversion to an
index (40_numerics.md R100) and the identities of zero and one (R107 (e)).
-/

namespace Sys2Proof.F32

theorem magnitude_eq_fields (b : F32) : (b.extractLsb' 0 31).toNat = expo b * 2 ^ 23 + frac b := by
  have hfields := toNat_eq_fields b
  have hexpo := expo_lt b
  have hfrac := frac_lt b
  rw [BitVec.extractLsb'_toNat, Nat.shiftRight_zero]
  omega

/-- Every magnitude has a pattern of sign 0. -/
theorem exists_sign_false (b : F32) :
    ∃ a : F32, sign a = false ∧ units a = units b ∧ a.toNat = (b.extractLsb' 0 31).toNat := by
  have hs : sign (pack false (expo b) (frac b)) = false := sign_pack ..
  have he : expo (pack false (expo b) (frac b)) = expo b := by rw [expo_pack, Nat.mod_eq_of_lt (expo_lt b)]
  have hf : frac (pack false (expo b) (frac b)) = frac b := by rw [frac_pack, Nat.mod_eq_of_lt (frac_lt b)]
  refine ⟨_, hs, ?_, ?_⟩
  · rw [units_eq_of_fields, units_eq_of_fields b, he, hf]
  · rw [toNat_of_sign_false hs, he, hf, magnitude_eq_fields]

/-- The magnitude bits, read as unsigned integers, order all patterns as their units (40_numerics.md R91). -/
theorem units_le_units_iff_magnitude (a b : F32) :
    units a ≤ units b ↔ (a.extractLsb' 0 31).toNat ≤ (b.extractLsb' 0 31).toNat := by
  obtain ⟨a', hsa, hua, hna⟩ := exists_sign_false a
  obtain ⟨b', hsb, hub, hnb⟩ := exists_sign_false b
  rw [← hua, ← hub, ← hna, ← hnb, units_le_units_iff hsa hsb]

/-! The conversion to an index, by the class of the operand -/

/-- A value of sign 0 is its units over `2 ^ 149`. -/
theorem val_eq_div {b : F32} (hf : isFinite b = true) (hs : sign b = false) :
    val b = (units b : ℕ) / ((2 ^ 149 : ℕ) : ℚ) := by
  rw [val_eq_signedUnits b hf, signedUnits_of_sign_false hs, Int.cast_natCast, div_eq_mul_inv]
  norm_num

theorem f2idx_of_finite (n : Nat) {b : F32} (hf : isFinite b = true) (hs : sign b = false) :
    f2idx n b = min (units b / 2 ^ 149) (n - 1) := by
  simp [f2idx, isNaN_of_finite hf, isInf_of_finite hf, hs]

theorem f2idx_of_isInf (n : Nat) {b : F32} (h : isInf b = true) (hs : sign b = false) : f2idx n b = n - 1 := by
  simp [f2idx, isNaN_of_isInf h, hs, h]

theorem f2idx_of_sign (n : Nat) {b : F32} (hs : sign b = true) : f2idx n b = 0 := by
  simp [f2idx, hs]

theorem f2idx_nan (n : Nat) {b : F32} (h : isNaN b = true) : f2idx n b = 0 := by
  simp [f2idx, h]

end Sys2Proof.F32

namespace Sys2Proof.Config

theorem srf_positive_normal (c : Config) : F32.sign c.srf = false ∧ F32.isNormal c.srf = true := by
  obtain ⟨hs, hn, -⟩ := F32.u2f_exact c.sampleRate_legal.1 c.sampleRate_legal.2
  exact ⟨hs, hn⟩

theorem srf_finite (c : Config) : F32.isFinite c.srf = true := F32.isFinite_of_isNormal c.srf_positive_normal.2

end Sys2Proof.Config

namespace Sys2Proof.Machine

/-- Settles O44, by the class of the operand. -/
theorem indexConversionSaturates : Obligations.IndexConversionSaturates := by
  refine fun n p hn => ⟨F32.f2idx_nan n, F32.f2idx_of_sign n, fun hs hinf => F32.f2idx_of_isInf n hinf hs,
    fun hs hf => ?_⟩
  rw [F32.f2idx_of_finite n hf hs, F32.val_eq_div hf hs, Rat.floor_natCast_div_natCast, Nat.cast_min,
    Int.natCast_ediv, Nat.cast_pred hn]

/-- Settles O49, by `one_fmul`, `pzero_fmul` and `fadd_isZero`. -/
theorem zeroAndOneIdentities : Obligations.ZeroAndOneIdentities :=
  fun _ h => ⟨F32.one_fmul h, F32.pzero_fmul h, fun ht _ => F32.fadd_isZero h ht⟩

/-! The range of an entry -/

/-- The check compares with the magnitude of 1.0. -/
theorem entryLegal_iff_units (b : F32) : entryLegal b = true ↔ F32.units b ≤ F32.units F32.one := by
  rw [F32.units_le_units_iff_magnitude, entryLegal, decide_eq_true_iff]
  rfl

/-- Settles O52: magnitudes are ordered as their units. -/
theorem legalEntriesLieInUnitRange : Obligations.LegalEntriesLieInUnitRange := by
  intro b
  rw [← abs_le]
  constructor
  · exact fun h => ⟨entryLegal_finite h, entryLegal_abs_val_le_one h⟩
  · rintro ⟨hf, hv⟩
    rw [← abs_one, ← F32.val_one, F32.abs_val hf, F32.abs_val (by decide)] at hv
    rw [entryLegal_iff_units]
    exact Nat.cast_le.1 (le_of_mul_le_mul_right hv (by positivity))

/-! The overflow of SETF -/

/-- The bound `0x7C800000` is `2^271` units, and no pattern below it comes nearer than a spacing of `2^247` units. -/
theorem overflow_magnitude_iff (f : F32) :
    0x7C800000 ≤ (f.extractLsb' 0 31).toNat ↔ (2 ^ 25 - 1) * 2 ^ 246 ≤ F32.units f := by
  have hbound : F32.units 0x7C800000#32 = 2 ^ 271 := by decide +kernel
  have hbelow : F32.units 0x7C7FFFFF#32 = 2 ^ 271 - 2 ^ 247 := by decide +kernel
  constructor
  · intro h
    have := (F32.units_le_units_iff_magnitude 0x7C800000#32 f).2 h
    omega
  · intro h
    by_contra! hlt
    have := (F32.units_le_units_iff_magnitude f 0x7C7FFFFF#32).2 (Nat.le_of_lt_succ hlt)
    omega

theorem fmul_inf_normal {a b : F32} (ha : F32.isInf a = true) (hn : F32.isNormal b = true) :
    F32.fmul a b = F32.inf (xor (F32.sign a) (F32.sign b)) := by
  have hza : F32.isZero a = false := Bool.eq_false_of_not_eq_true fun hz => by
    rw [F32.isInf_of_finite (F32.isFinite_of_isZero hz)] at ha
    cases ha
  have hzb : F32.isZero b = false := by
    rw [← Bool.not_eq_true, ← F32.units_eq_zero_iff]
    exact (Nat.two_pow_pos 23 |>.trans_le (F32.units_le_of_isNormal hn)).ne'
  exact F32.fmul_inf (F32.isNaN_of_isInf ha) (F32.isNaN_of_finite (F32.isFinite_of_isNormal hn)) hza hzb (.inl ha)

/-- A product with a positive normal factor is no NaN and has the other factor's sign. -/
theorem fmul_positive {a b : F32} (ha : F32.isNaN a = false) (hs : F32.sign b = false) (hn : F32.isNormal b = true) :
    F32.isNaN (F32.fmul a b) = false ∧ F32.sign (F32.fmul a b) = F32.sign a := by
  rcases F32.nan_or_inf_or_finite a with hnan | hinf | hf
  · rw [ha] at hnan
    cases hnan
  · rw [fmul_inf_normal hinf hn, hs, Bool.xor_false]
    cases F32.sign a <;> decide
  · rw [F32.fmul_of_finite hf (F32.isFinite_of_isNormal hn), F32.sign_round32, hs, Bool.xor_false, ite_self]
    exact ⟨F32.isNaN_round32 _ _ (by positivity), rfl⟩

theorem isInf_fmul_sixtyFour_of_finite {f : F32} (hf : F32.isFinite f = true) :
    F32.isInf (F32.fmul f (F32.u2f 64)) = true ↔ (2 ^ 25 - 1) * 2 ^ 246 ≤ F32.units f := by
  obtain ⟨-, hn, hu⟩ := F32.u2f_exact (k := 64) (by norm_num) (by norm_num)
  rw [F32.fmul_of_finite hf (F32.isFinite_of_isNormal hn), hu]
  by_cases h0 : F32.units f = 0
  · rw [h0, zero_mul, F32.round32_of_num_zero _ rfl, F32.isInf_of_finite (F32.isFinite_of_isZero (F32.isZero_zero _))]
    norm_num
  · rw [F32.isInf_round32_iff _ (by positivity) (mul_ne_zero h0 (by positivity))]
    dsimp only
    omega

/-- At `N = 64` the product of SETF overflows exactly from the magnitude `0x7C800000` on (41_frequency_control.md R131,
90_conflicts.md C6). -/
theorem isInf_fmul_sixtyFour_iff {f : F32} (h : F32.isNaN f = false) :
    F32.isInf (F32.fmul f (F32.u2f 64)) = true ↔ 0x7C800000 ≤ (f.extractLsb' 0 31).toNat := by
  rcases F32.nan_or_inf_or_finite f with hnan | hinf | hf
  · rw [h] at hnan
    cases hnan
  · obtain ⟨-, hn, -⟩ := F32.u2f_exact (k := 64) (by norm_num) (by norm_num)
    obtain ⟨hexpo, hfrac⟩ := (F32.isInf_iff f).1 hinf
    rw [fmul_inf_normal hinf hn, F32.magnitude_eq_fields, hexpo, hfrac]
    cases xor (F32.sign f) (F32.sign (F32.u2f 64)) <;> decide
  · rw [isInf_fmul_sixtyFour_of_finite hf, overflow_magnitude_iff]

variable {c : Config} {f : F32}

theorem increment_ieee (c : Config) (f : F32) :
    increment Numerics.ieee c f = F32.fdiv (F32.fmul f c.nf) c.srf := rfl

/-- An infinite product stays the infinity of its sign. -/
theorem increment_of_isInf (h : F32.isInf (F32.fmul f c.nf) = true) :
    increment Numerics.ieee c f = F32.inf (F32.sign (F32.fmul f c.nf)) := by
  rw [increment_ieee, F32.fdiv_inf_finite h c.srf_finite, c.srf_positive_normal.1, Bool.xor_false]

/-- A finite product is not made larger by the quotient by `SR_f`, which is at least 1. -/
theorem increment_finite (h : F32.isFinite (F32.fmul f c.nf) = true) :
    F32.isFinite (increment Numerics.ieee c f) = true := by
  have hone : 1 ≤ F32.val c.srf := by
    rw [c.val_srf]
    exact_mod_cast c.sampleRate_legal.1
  obtain ⟨h0, -⟩ := F32.positive_of_one_le_val c.srf_finite hone
  refine (F32.fdiv_roundsTo h c.srf_finite h0).finite (b := F32.fmul f c.nf) ?_
  rw [abs_div]
  exact div_le_self (abs_nonneg _) (hone.trans (le_abs_self _))

/-- Settles O27: the product by `isInf_fmul_sixtyFour_iff`, then the quotient by the class of the product. -/
theorem frequencyOverflowBound : Obligations.FrequencyOverflowBound := by
  intro f s hn hnan
  have hiff := isInf_fmul_sixtyFour_iff hnan
  obtain ⟨hprod, hsign⟩ := fmul_positive hnan s.inst.nf_positive_normal.1 s.inst.nf_positive_normal.2
  rw [← hn] at hiff
  refine ⟨hiff, fun h => ?_, fun h => ?_⟩
  · rw [← hsign]
    exact increment_of_isInf (hiff.2 h)
  · refine increment_finite (c := s.inst) ?_
    rcases F32.nan_or_inf_or_finite (F32.fmul f s.inst.nf) with hp | hp | hp
    · rw [hprod] at hp
      cases hp
    · exact absurd (hiff.1 hp) h.not_ge
    · exact hp

end Sys2Proof.Machine
end

section
/-!
PROOFS. What is written down for the block: the parameters that elaboration accepts (00_scope.md R9), the listed sine
table (20_memory.md R44), and the literals of a command listing (30_encoding.md R76).
-/

namespace Sys2Proof

/-! Elaboration -/

/-- What elaboration answers, one case per answer (00_scope.md R9). -/
theorem Config.elaborate_cases (n sr : Nat) (t : List F32) :
    (¬(1 ≤ n ∧ n ≤ 2 ^ 24) ∧ elaborate n sr t = .error .nOutOfRange) ∨
    ((1 ≤ n ∧ n ≤ 2 ^ 24) ∧ ¬(1 ≤ sr ∧ sr ≤ 2 ^ 24) ∧ elaborate n sr t = .error .sampleRateOutOfRange) ∨
    ((1 ≤ n ∧ n ≤ 2 ^ 24) ∧ (1 ≤ sr ∧ sr ≤ 2 ^ 24) ∧ t.length ≠ n ∧ elaborate n sr t = .error .tableLength) ∨
    ((1 ≤ n ∧ n ≤ 2 ^ 24) ∧ (1 ≤ sr ∧ sr ≤ 2 ^ 24) ∧ t.length = n ∧ ¬ t.all entryLegal = true ∧
      elaborate n sr t = .error (.tableEntry (t.findIdx fun b => !entryLegal b))) ∨
    ((1 ≤ n ∧ n ≤ 2 ^ 24) ∧ (1 ≤ sr ∧ sr ≤ 2 ^ 24) ∧ t.length = n ∧ t.all entryLegal = true ∧
      ∃ c : Config, elaborate n sr t = .ok c ∧ c.n = n ∧ c.sampleRate = sr ∧ c.table = t) := by
  unfold elaborate
  split
  case isFalse hn => exact .inl ⟨hn, rfl⟩
  case isTrue hn =>
    split
    case isFalse hs => exact .inr (.inl ⟨hn, hs, rfl⟩)
    case isTrue hs =>
      split
      case isFalse hl => exact .inr (.inr (.inl ⟨hn, hs, hl, rfl⟩))
      case isTrue hl =>
        split
        case isFalse ht => exact .inr (.inr (.inr (.inl ⟨hn, hs, hl, ht, rfl⟩)))
        case isTrue ht => exact .inr (.inr (.inr (.inr ⟨hn, hs, hl, ht, _, rfl, rfl, rfl, rfl⟩)))

/-- The index that elaboration names is the first one whose entry is illegal. -/
theorem findIdx_illegal_iff {t : List F32} (h : ¬ t.all entryLegal = true) (i : Nat) :
    t.findIdx (fun b => !entryLegal b) = i ↔
      (∃ b : F32, t[i]? = some b ∧ entryLegal b = false) ∧
      ∀ j : Nat, j < i → ∀ b : F32, t[j]? = some b → entryLegal b = true := by
  have hexists : t.findIdx (fun b => !entryLegal b) < t.length := by
    simpa [List.findIdx_lt_length] using h
  have hiff (hi : i < t.length) : t.findIdx (fun b => !entryLegal b) = i ↔
      (!entryLegal t[i]) = true ∧ ∀ j, (hji : j < i) → (!entryLegal t[j]) = false := List.findIdx_eq hi
  constructor
  · intro hi
    obtain ⟨hbad, hgood⟩ := (hiff (hi ▸ hexists)).1 hi
    refine ⟨⟨t[i], List.getElem?_eq_getElem _, by simpa using hbad⟩, fun j hj b hb => ?_⟩
    obtain ⟨-, rfl⟩ := List.getElem?_eq_some_iff.1 hb
    simpa using hgood j hj
  · rintro ⟨⟨b, hb, hbad⟩, hgood⟩
    obtain ⟨hi, rfl⟩ := List.getElem?_eq_some_iff.1 hb
    refine (hiff hi).2 ⟨by simpa using hbad, fun j hj => ?_⟩
    simpa using hgood j hj t[j] (List.getElem?_eq_getElem _)

theorem not_exists_illegal {t : List F32} (h : t.all entryLegal = true) (i : Nat) :
    ¬ ∃ b : F32, t[i]? = some b ∧ entryLegal b = false := by
  rintro ⟨b, hb, hbad⟩
  rw [List.all_eq_true.1 h b (List.mem_of_getElem? hb)] at hbad
  cases hbad

/-- Settles O51, by the cases of `elaborate_cases`: in each the answer is one of five different ones, and the conditions
of the other four fail. -/
theorem elaborationRefusesIllegalParameters : Obligations.ElaborationRefusesIllegalParameters := by
  intro n sr t
  have hcases := Config.elaborate_cases n sr t
  have hindex := findIdx_illegal_iff (t := t)
  rw [← List.all_eq_true]
  generalize Config.elaborate n sr t = answer at *
  generalize (1 ≤ n ∧ n ≤ 2 ^ 24) = nLegal at *
  generalize (1 ≤ sr ∧ sr ≤ 2 ^ 24) = srLegal at *
  rcases hcases with ⟨hn, rfl⟩ | ⟨hn, hs, rfl⟩ | ⟨hn, hs, hl, rfl⟩ | ⟨hn, hs, hl, ht, rfl⟩ |
    ⟨hn, hs, hl, ht, c, rfl, hc⟩
  · simp [hn]
  · simp [hn, hs]
  · simp [hn, hs, hl]
  · simp only [reduceCtorEq, Except.error.injEq, ConfigError.tableEntry.injEq, hindex ht]
    simp [hn, hs, hl, ht]
  · simp only [not_exists_illegal ht]
    simp [hn, hs, hl, ht, hc]

namespace Machine

/-- Settles O54, by evaluation of the series. -/
theorem computedSineTableIsTheListedOne : Obligations.ComputedSineTableIsTheListedOne := by
  refine ⟨?_, rfl, rfl⟩
  decide +kernel

/-! Literals -/

theorem decimalExact_den_pos (neg : Bool) (digits : Nat) (exp10 : Int) : 0 < (decimalExact neg digits exp10).den := by
  unfold decimalExact
  split
  · exact Nat.one_pos
  · positivity

theorem decimalExact_val (neg : Bool) (digits : Nat) (exp10 : Int) :
    (decimalExact neg digits exp10).val = (-1) ^ neg.toNat * (digits : ℚ) * (10 : ℚ) ^ exp10 := by
  have hunit : (2 : ℚ) ^ 149 * 2 ^ (-149 : ℤ) = 1 := by norm_num
  unfold decimalExact F32.Exact.val
  split
  case isTrue h =>
    have hpow : (10 : ℚ) ^ exp10 = 10 ^ exp10.toNat := by rw [← zpow_natCast, Int.toNat_of_nonneg h]
    rw [hpow]
    push_cast
    linear_combination (-1) ^ neg.toNat * (digits : ℚ) * 10 ^ exp10.toNat * hunit
  case isFalse h =>
    have hpow : (10 : ℚ) ^ exp10 = (10 ^ (-exp10).toNat)⁻¹ := by
      rw [← zpow_natCast, Int.toNat_of_nonneg (by omega), zpow_neg, inv_inv]
    rw [hpow]
    push_cast
    linear_combination (-1) ^ neg.toNat * (digits : ℚ) * (10 ^ (-exp10).toNat)⁻¹ * hunit

theorem decimalExact_zero_num (neg : Bool) (exp10 : Int) : (decimalExact neg 0 exp10).num = 0 := by
  unfold decimalExact
  split <;> simp

theorem enc_decimal_zero (neg : Bool) (exp10 : Int) : (Literal.decimal neg 0 exp10).enc = F32.zero neg :=
  F32.round32_of_num_zero neg (decimalExact_zero_num neg exp10)

theorem enc_decimal_roundsTo (neg : Bool) (digits : Nat) (exp10 : Int) :
    F32.RoundsTo ((-1) ^ neg.toNat * (digits : ℚ) * (10 : ℚ) ^ exp10) (Literal.decimal neg digits exp10).enc := by
  rw [← decimalExact_val]
  exact F32.round32_roundsTo neg (decimalExact_den_pos neg digits exp10)

/-- The examples of 30_encoding.md R76. -/
theorem expand_examples :
    (Line.setf (.decimal false 300 (-1))).expand = [⟨false, 0x341F00000#34⟩] ∧
    (Line.setf (.decimal false 4400 (-1))).expand = [⟨false, 0x343DC0000#34⟩] ∧
    (Line.setf (.decimal false 6890625 (-4))).expand = [⟨false, 0x3442C4400#34⟩] ∧
    (Line.setf (.decimal false 34453125 (-5))).expand = [⟨false, 0x343AC4400#34⟩] ∧
    (Line.setf (.decimal true 34453125 (-5))).expand = [⟨false, 0x3C3AC4400#34⟩] ∧
    (Line.setf (.decimal false 0 (-1))).expand = [⟨false, 0x300000000#34⟩] ∧
    (Line.setf .posInf).expand = [⟨false, 0x37F800000#34⟩] := by
  decide +kernel

/-- Settles O56: a decimal literal is rounded once from the real number it writes. -/
theorem literalsDenotePatterns : Obligations.LiteralsDenotePatterns :=
  ⟨fun _ => rfl, enc_decimal_roundsTo, fun exp10 => ⟨enc_decimal_zero true exp10, enc_decimal_zero false exp10⟩,
    rfl, rfl, rfl, rfl, rfl, expand_examples⟩

end Machine

end Sys2Proof
end

section
/-!
PROOFS. The default table is the real sine correctly rounded (20_memory.md R43). The sine of each step in the first
quarter is enclosed between two rationals by the half-angle formula; both ends round to the listed entry, so no pattern
is nearer to what lies between them. The symmetries of the sine and of the list (R45) give the other three quarters.
-/

namespace Sys2Proof

/-! The nearest pattern to a real number -/

namespace F32

/-- No finite pattern is nearer to the real `x` than `r`. -/
def Nearest (x : ℝ) (r : F32) : Prop :=
  ∀ b : F32, isFinite b = true → |((val r : ℚ) : ℝ) - x| ≤ |((val b : ℚ) : ℝ) - x|

variable {x lo hi : ℝ} {r : F32}

theorem RoundsTo.nearest {q : ℚ} (h : RoundsTo q r) (hr : isFinite r = true) : Nearest q r := by
  obtain ⟨-, -, -, -, hnear⟩ := h
  exact fun b hb => by exact_mod_cast (hnear hr b hb).1

theorem nearest_of_val_eq (h : ((val r : ℚ) : ℝ) = x) : Nearest x r := by
  intro b _
  rw [h, sub_self, abs_zero]
  exact abs_nonneg _

/-- The reals to which a pattern is nearest are an interval: being nearer than `b` is being on one side of the
middle. -/
theorem nearest_of_between (hlo : Nearest lo r) (hhi : Nearest hi r) (hlox : lo ≤ x) (hxhi : x ≤ hi) :
    Nearest x r := by
  intro b hb
  have hle := hlo b hb
  have hge := hhi b hb
  generalize ((val r : ℚ) : ℝ) = v at hle hge ⊢
  generalize ((val b : ℚ) : ℝ) = u at hle hge ⊢
  rw [← sq_le_sq] at hle hge ⊢
  rcases le_total u v with h | h <;> nlinarith

theorem Nearest.neg (h : Nearest x r) : Nearest (-x) (neg r) := by
  intro b hb
  calc |((val (F32.neg r) : ℚ) : ℝ) - -x|
    _ = |((val r : ℚ) : ℝ) - x| := by rw [val_neg, Rat.cast_neg, ← neg_sub', abs_neg]
    _ ≤ |((val (F32.neg b) : ℚ) : ℝ) - x| := h (F32.neg b) (by rwa [isFinite_neg])
    _ = |((val b : ℚ) : ℝ) - -x| := by rw [val_neg, Rat.cast_neg, ← abs_neg, neg_sub', neg_neg]

end F32

namespace Machine

/-! The sine at the steps of the table -/

/-- The real sine that entry `i` of the default table stands for (20_memory.md R43). -/
noncomputable def tableSine (i : ℕ) : ℝ := Real.sin (2 * Real.pi * i / 64)

theorem tableSine_zero : tableSine 0 = 0 := by simp [tableSine]

theorem tableSine_quarter : tableSine 16 = 1 := by
  rw [tableSine, ← Real.sin_pi_div_two]
  congr 1
  push_cast
  ring

theorem tableSine_mirror {i : ℕ} (h : i ≤ 32) : tableSine (32 - i) = tableSine i := by
  rw [tableSine, tableSine, ← Real.sin_pi_sub]
  congr 1
  push_cast [h]
  ring

theorem tableSine_half (i : ℕ) : tableSine (32 + i) = -tableSine i := by
  rw [tableSine, tableSine, ← Real.sin_add_pi]
  congr 1
  push_cast
  ring

theorem tableSine_nonneg {i : ℕ} (h : i ≤ 32) : 0 ≤ tableSine i := by
  have hi : (i : ℝ) ≤ 32 := by exact_mod_cast h
  have hpi := Real.pi_pos
  refine Real.sin_nonneg_of_nonneg_of_le_pi (by positivity) ?_
  rw [div_le_iff₀ (by norm_num)]
  nlinarith

theorem tableSine_le_one (i : ℕ) : tableSine i ≤ 1 := Real.sin_le_one _

/-- The half-angle formula up to the middle of the first quarter. -/
theorem two_mul_tableSine_sq_low {i : ℕ} (h : i ≤ 8) : 2 * tableSine i ^ 2 = 1 - tableSine (16 - 2 * i) := by
  have hcos : tableSine (16 - 2 * i) = Real.cos (2 * (2 * Real.pi * i / 64)) := by
    rw [tableSine, ← Real.sin_pi_div_two_sub]
    congr 1
    rw [Nat.cast_sub (by omega)]
    push_cast
    ring
  rw [hcos, tableSine, Real.sin_sq_eq_half_sub]
  ring

/-- The half-angle formula from the middle of the first quarter on. -/
theorem two_mul_tableSine_sq_high {i : ℕ} (h : 8 ≤ i) : 2 * tableSine i ^ 2 = 1 + tableSine (2 * i - 16) := by
  have hcos : tableSine (2 * i - 16) = -Real.cos (2 * (2 * Real.pi * i / 64)) := by
    rw [tableSine, ← Real.sin_sub_pi_div_two]
    congr 1
    rw [Nat.cast_sub (by omega)]
    push_cast
    ring
  rw [hcos, tableSine, Real.sin_sq_eq_half_sub]
  ring

/-! Enclosures -/

/-- `x` is between the ends of `p`, which are in units of `2^-60`. -/
def Encloses (p : ℕ × ℕ) (x : ℝ) : Prop := (p.1 : ℝ) ≤ 2 ^ 60 * x ∧ 2 ^ 60 * x ≤ p.2

/-- The enclosure of `sqrt (t / 2)` for `t` enclosed by `p`. -/
def sqrtHalf (p : ℕ × ℕ) : ℕ × ℕ := (Nat.sqrt (p.1 * 2 ^ 59), Nat.sqrt (p.2 * 2 ^ 59) + 1)

theorem encloses_sqrtHalf {p : ℕ × ℕ} {x t : ℝ} (hx : 0 ≤ x) (h : 2 * x ^ 2 = t) (hp : Encloses p t) :
    Encloses (sqrtHalf p) x := by
  obtain ⟨hlo, hhi⟩ := hp
  have hsq : (2 ^ 60 * x) ^ 2 = 2 ^ 60 * t * 2 ^ 59 := by rw [← h]; ring
  have hfloor : ((Nat.sqrt (p.1 * 2 ^ 59) : ℕ) : ℝ) ^ 2 ≤ p.1 * 2 ^ 59 := by
    exact_mod_cast Nat.sqrt_le' (p.1 * 2 ^ 59)
  have hceil : (p.2 : ℝ) * 2 ^ 59 ≤ ((Nat.sqrt (p.2 * 2 ^ 59) + 1 : ℕ) : ℝ) ^ 2 := by
    exact_mod_cast (Nat.lt_succ_sqrt' (p.2 * 2 ^ 59)).le
  constructor
  · refine le_of_sq_le_sq (hfloor.trans ?_) (mul_nonneg (by norm_num) hx)
    rw [hsq]
    exact mul_le_mul_of_nonneg_right hlo (by norm_num)
  · refine le_of_sq_le_sq (le_trans ?_ hceil) (Nat.cast_nonneg _)
    rw [hsq]
    exact mul_le_mul_of_nonneg_right hhi (by norm_num)

/-- The enclosure of `1 - t`. -/
def oneSub (p : ℕ × ℕ) : ℕ × ℕ := (2 ^ 60 - p.2, 2 ^ 60 - p.1)

theorem encloses_oneSub {p : ℕ × ℕ} {t : ℝ} (h1 : t ≤ 1) (hp : Encloses p t) : Encloses (oneSub p) (1 - t) := by
  obtain ⟨hlo, hhi⟩ := hp
  constructor
  · rcases le_total p.2 (2 ^ 60) with h | h
    · rw [oneSub, Nat.cast_sub h]
      push_cast
      linarith
    · have hzero : (oneSub p).1 = 0 := Nat.sub_eq_zero_of_le h
      rw [hzero, Nat.cast_zero]
      exact mul_nonneg (by norm_num) (sub_nonneg.2 h1)
  · have hadd : (2 : ℝ) ^ 60 ≤ (oneSub p).2 + p.1 := by exact_mod_cast (le_tsub_add : 2 ^ 60 ≤ 2 ^ 60 - p.1 + p.1)
    linarith

/-- The enclosure of `1 + t`. -/
def oneAdd (p : ℕ × ℕ) : ℕ × ℕ := (2 ^ 60 + p.1, 2 ^ 60 + p.2)

theorem encloses_oneAdd {p : ℕ × ℕ} {t : ℝ} (hp : Encloses p t) : Encloses (oneAdd p) (1 + t) := by
  obtain ⟨hlo, hhi⟩ := hp
  constructor <;> push_cast [oneAdd] <;> linarith

/-- An enclosure of the sine at step `i` of the first quarter, by at most `k` halvings of an angle. -/
def sineInterval : (k i : ℕ) → ℕ × ℕ
  | 0, _ => (0, 0)
  | k + 1, i =>
    if i = 0 then (0, 0)
    else if i ≤ 8 then sqrtHalf (oneSub (sineInterval k (16 - 2 * i)))
    else sqrtHalf (oneAdd (sineInterval k (2 * i - 16)))

theorem encloses_tableSine_zero : Encloses (0, 0) (tableSine 0) := by
  rw [tableSine_zero]
  exact ⟨by simp, by simp⟩

/-- After `k` halvings the angle of step `i` has become 0 if `16` divides `2 ^ k * i`. -/
theorem encloses_sineInterval (k : ℕ) {i : ℕ} (hi : i < 16) (hk : 16 ∣ 2 ^ k * i) :
    Encloses (sineInterval k i) (tableSine i) := by
  induction k generalizing i with
  | zero =>
    obtain rfl : i = 0 := by omega
    exact encloses_tableSine_zero
  | succ k ih =>
    have hdouble : 16 ∣ 2 ^ k * (2 * i) := by rwa [← mul_assoc, ← pow_succ]
    rw [sineInterval]
    split_ifs with h0 h8
    · rw [h0]
      exact encloses_tableSine_zero
    · refine encloses_sqrtHalf (tableSine_nonneg (by omega)) (two_mul_tableSine_sq_low h8)
        (encloses_oneSub (tableSine_le_one _) (ih (by omega) ?_))
      rw [Nat.mul_sub]
      exact Nat.dvd_sub (Dvd.intro_left _ rfl) hdouble
    · refine encloses_sqrtHalf (tableSine_nonneg (by omega)) (two_mul_tableSine_sq_high (by omega))
        (encloses_oneAdd (ih (by omega) ?_))
      rw [Nat.mul_sub]
      exact Nat.dvd_sub hdouble (Dvd.intro_left _ rfl)

/-! The entries -/

/-- `n * 2^-60` rounded (40_numerics.md R92). -/
def roundEnd (n : ℕ) : F32 := F32.round32 ⟨false, n * 2 ^ 89, 1⟩ false

theorem nearest_roundEnd {n : ℕ} (h : F32.isFinite (roundEnd n) = true) :
    F32.Nearest ((n : ℝ) / 2 ^ 60) (roundEnd n) := by
  have hval : F32.Exact.val ⟨false, n * 2 ^ 89, 1⟩ = (n : ℚ) / 2 ^ 60 := by
    have hunit : (2 : ℚ) ^ 89 * 2 ^ (-149 : ℤ) = 1 / 2 ^ 60 := by norm_num
    rw [F32.Exact.val, Bool.toNat_false]
    push_cast
    linear_combination (n : ℚ) * hunit
  have hcast : (((n : ℚ) / 2 ^ 60 : ℚ) : ℝ) = (n : ℝ) / 2 ^ 60 := by push_cast; rfl
  have hround := F32.round32_roundsTo (x := ⟨false, n * 2 ^ 89, 1⟩) false Nat.one_pos
  rw [hval] at hround
  exact hcast ▸ hround.nearest h

/-- Both ends of each enclosure round to the listed entry (20_memory.md R44). -/
theorem roundEnd_sineInterval : ∀ i < 16, roundEnd (sineInterval 4 i).1 = romRead Config.default i ∧
    roundEnd (sineInterval 4 i).2 = romRead Config.default i := by
  decide +kernel

theorem nearest_first_quarter {i : ℕ} (hi : i < 16) : F32.Nearest (tableSine i) (romRead Config.default i) := by
  obtain ⟨hlo, hhi⟩ := encloses_sineInterval 4 hi (Dvd.intro _ rfl)
  obtain ⟨hrlo, hrhi⟩ := roundEnd_sineInterval i hi
  have hf : F32.isFinite (romRead Config.default i) = true :=
    romRead_finite (c := Config.default) (hi.trans (by decide))
  have hnlo := nearest_roundEnd (hrlo.symm ▸ hf)
  have hnhi := nearest_roundEnd (hrhi.symm ▸ hf)
  rw [hrlo] at hnlo
  rw [hrhi] at hnhi
  refine F32.nearest_of_between hnlo hnhi ?_ ?_
  · rw [div_le_iff₀' (by norm_num)]
    exact hlo
  · rw [le_div_iff₀' (by norm_num)]
    exact hhi

/-- The real sine at the middle of the first half is 1, and so is the entry. -/
theorem nearest_quarter : F32.Nearest (tableSine 16) (romRead Config.default 16) := by
  apply F32.nearest_of_val_eq
  have hone : F32.val (romRead Config.default 16) = 1 := F32.val_one
  rw [hone, tableSine_quarter, Rat.cast_one]

theorem nearest_first_half {i : ℕ} (hi : i ≤ 32) : F32.Nearest (tableSine i) (romRead Config.default i) := by
  rcases (by omega : i < 16 ∨ i = 16 ∨ 32 - i < 16) with h | rfl | h
  · exact nearest_first_quarter h
  · exact nearest_quarter
  · rw [← tableSine_mirror hi, ← romRead_default_mirror i hi]
    exact nearest_first_quarter h

theorem nearest_default {i : ℕ} (hi : i < 64) : F32.Nearest (tableSine i) (romRead Config.default i) := by
  rcases le_or_gt i 32 with h | h
  · exact nearest_first_half h
  · obtain ⟨j, rfl⟩ := Nat.exists_eq_add_of_lt h
    rw [Nat.add_assoc, tableSine_half, romRead_default_half (j + 1) (by omega) (by omega)]
    exact (nearest_first_half (by omega)).neg

/-- Settles O55, quarter by quarter. -/
theorem defaultTableIsTheRoundedSine : Obligations.DefaultTableIsTheRoundedSine := by
  intro i hi
  refine ⟨fun hzero => ?_, nearest_default hi⟩
  obtain rfl | rfl : i = 0 ∨ i = 32 := by omega
  · rfl
  · rfl

end Machine

end Sys2Proof
end
